-- ==== Sys2Proof/Word.lean ====
section
/-! DEFINITION. The plain value types of DBR: the 32-bit word of the command and response ports, and the byte of the source space. -/

namespace Sys2Proof

/-- A 32-bit value: a command word, SI, TAG, RESULT (10_state.md R20, R22, R26; 30_encoding.md R72). -/
abbrev Word := BitVec 32

/-- One byte of the source space (20_memory.md R50). -/
abbrev Byte := BitVec 8

end Sys2Proof
end

