-- ==== Sys2Proof/Config.lean ====
section
/-! DEFINITION. What is fixed for every DBR (the parameters of 00_scope.md R8 and the constant permutation CLCIDX), and the FREE VALUES: constants with no body, one for each value the spec calls unspecified. -/

namespace Sys2Proof.Config

/-- `REFILL_TARGET`, 00_scope.md R8. -/
abbrev refillTarget : Nat := 24

/-- `MAX_READ`, the largest n of a field read, 00_scope.md R8. -/
abbrev maxRead : Nat := 16

/-- `MAX_CODE_LEN`, 00_scope.md R8. -/
abbrev maxCodeLen : Nat := 15

/-- Symbol capacity of LT and FLT, 00_scope.md R8, 10_state.md R29, R30. -/
abbrev ltCap : Nat := 288

/-- Symbol capacity of DT and FDT, 00_scope.md R8, 10_state.md R29, R30. -/
abbrev dtCap : Nat := 32

/-- Symbol capacity of CLT, 00_scope.md R8, 10_state.md R29. -/
abbrev cltCap : Nat := 19

/-- Number of LENS cells, 00_scope.md R8, 10_state.md R32. -/
abbrev lensSize : Nat := 320

/-- `CLCIDX[0..18]`, 10_state.md R31: the order in which TREES reads the code-length-alphabet lengths. -/
def clcidx : List Nat := [16, 17, 18, 0, 8, 7, 9, 6, 10, 5, 11, 4, 12, 3, 13, 2, 14, 1, 15]

/-! ### Free values

Each is applied to the draw counter of `State` (and to the place of the cell drawn), so two draws are never tied together.
The values after a DataError are those of 60_exceptions.md R236 and 93_implementation_defined.md U3 (assumption 3).
-/

/-- SI after a DataError. -/
opaque freeSi : Nat → BitVec 32
/-- TAG after a DataError. -/
opaque freeTag : Nat → BitVec 32
/-- BC after a DataError. -/
opaque freeBc : Nat → BitVec 6
/-- RESULT after a DataError. -/
opaque freeResult : Nat → BitVec 32
/-- HLIT after a DataError. -/
opaque freeHlit : Nat → BitVec 9
/-- HDIST after a DataError. -/
opaque freeHdist : Nat → BitVec 6
/-- HCLEN after a DataError. -/
opaque freeHclen : Nat → BitVec 5
/-- The LENS cell of the given index after a DataError. -/
opaque freeLens : Nat → Nat → BitVec 4
/-- The valid bit of the table of the given TSEL after a DataError. -/
opaque freeValid : Nat → Nat → Bool
/-- `T.count[L]` of the table of the given TSEL after a DataError. -/
opaque freeCount : Nat → Nat → Nat → BitVec 9
/-- `T.sym[i]` of the table of the given TSEL after a DataError. -/
opaque freeSym : Nat → Nat → Nat → BitVec 9
/-- The RESULT part of a response whose STATUS is not OK: 30_encoding.md R71 (assumption 4). -/
opaque freeResponse : Nat → BitVec 32
/-- What RDTAB reads from a stale symbol cell: 44_observation.md R212, 93_implementation_defined.md U5 (assumption 5). -/
opaque freeStale : Nat → BitVec 9
/-- A symbol cell past a table's capacity, which no run reads: 42_symbol_decoder.md R163 (assumption 6). -/
opaque freeBeyond : Nat → BitVec 9

end Sys2Proof.Config
end

