-- ==== Sys2Proof/Syntax.lean ====
section
/-! DEFINITION. The commands of DBR as syntax: one constructor of `Instr` for each row of spec/opcode_table.json (30_encoding.md R72 to R78), and the operand sets they range over. -/

namespace Sys2Proof

/-- The tables a command can name, by TSEL (30_encoding.md R77). -/
inductive Tbl where
  | lt | dt | clt | flt | fdt
  deriving DecidableEq, Repr

/-- The symbol capacity `CAP(TSEL)` (30_encoding.md R77, 10_state.md R29, R30). -/
def Tbl.cap : Tbl → Nat
  | .lt => Config.ltCap
  | .dt => Config.dtCap
  | .clt => Config.cltCap
  | .flt => Config.ltCap
  | .fdt => Config.dtCap

/-- Whether BUILD may write the table (30_encoding.md R77). -/
def Tbl.writable : Tbl → Bool
  | .lt | .dt | .clt => true
  | .flt | .fdt => false

/-- The PART bit of RDTAB (30_encoding.md R75). -/
inductive Part where
  | count | sym
  deriving DecidableEq, Repr

/-- The registers RDREG can name, by RSEL (44_observation.md R214). -/
inductive Reg where
  | si | bc | tag | err | errCause | hlit | hdist | hclen | srcLen
  deriving DecidableEq, Repr

/-- The ten commands. Fields are the encoded fields, all unsigned (30_encoding.md R81). -/
inductive Instr where
  | getbit
  | readbits (n : BitVec 5) (base : BitVec 16)
  | align
  | build (tbl : Tbl) (off num : BitVec 9)
  | decode (tbl : Tbl)
  | trees
  | wrlens (idx : BitVec 9) (val : BitVec 4)
  | rdlens (idx : BitVec 9)
  | rdtab (tbl : Tbl) (part : Part) (idx : BitVec 9)
  | rdreg (reg : Reg)
  deriving DecidableEq, Repr

/-- The observation commands, which run even when ERR = 1 (00_scope.md R16, 60_exceptions.md R237). -/
def Instr.isObservation : Instr → Bool
  | .rdlens _ => true
  | .rdtab _ _ _ => true
  | .rdreg _ => true
  | .getbit => false
  | .readbits _ _ => false
  | .align => false
  | .build _ _ _ => false
  | .decode _ => false
  | .trees => false
  | .wrlens _ _ => false

/-- The consuming commands: GETBIT, READBITS with n ≥ 1, DECODE and TREES (00_scope.md R16). -/
def Instr.isConsuming : Instr → Bool
  | .getbit => true
  | .readbits n _ => n != 0
  | .decode _ => true
  | .trees => true
  | .align => false
  | .build _ _ _ => false
  | .wrlens _ _ => false
  | .rdlens _ => false
  | .rdtab _ _ _ => false
  | .rdreg _ => false

/-! ### Pseudo-instructions (30_encoding.md R83): their expansions are exact. -/

/-- `READBYTE` is `READBITS 8, 0`. -/
def Instr.readByte : Instr := .readbits 8 0
/-- `READU16` is `READBITS 16, 0`. -/
def Instr.readU16 : Instr := .readbits 16 0
/-- `BFINAL` is `GETBIT`. -/
def Instr.bfinal : Instr := .getbit
/-- `BTYPE` is `READBITS 2, 0`. -/
def Instr.btype : Instr := .readbits 2 0

end Sys2Proof
end

