-- ==== Sys2Proof/WellFormed.lean ====
section
/-! DEFINITION. Field legality: the third column of the opcode map, 30_encoding.md R78. A word whose fields fail it is illegal, like a reserved word. -/

namespace Sys2Proof

/-- The largest legal cell index of `RDTAB tbl, part, _` is one below this (30_encoding.md R78). -/
def Part.size (tbl : Tbl) : Part → Nat
  | .count => 16
  | .sym => tbl.cap

/-- 30_encoding.md R78, field legality. -/
def Instr.wellFormed : Instr → Bool
  | .getbit => true
  | .readbits n _ => decide (n.toNat ≤ Config.maxRead)
  | .align => true
  | .build tbl off num =>
      tbl.writable && decide (num.toNat ≤ tbl.cap) && decide (off.toNat + num.toNat ≤ Config.lensSize)
  | .decode _ => true
  | .trees => true
  | .wrlens idx _ => decide (idx.toNat < Config.lensSize)
  | .rdlens idx => decide (idx.toNat < Config.lensSize)
  | .rdtab tbl part idx => decide (idx.toNat < part.size tbl)
  | .rdreg _ => true

end Sys2Proof
end

