-- ==== Sys2Proof/Decode.lean ====
section
/-! DEFINITION. The command decoder, total on any 32-bit word and refusing by name (30_encoding.md R72 to R81), and after it the encoder, written from the same field tables. -/

namespace Sys2Proof

/-- Why a word is no command. Every one of them is the same illegal word to DBR (30_encoding.md R80). -/
inductive Reject where
  /-- OP 0x0 or 0xB to 0xF. -/
  | reservedOpcode
  /-- A 1 in a must-be-zero bit of the format. -/
  | mustBeZero
  /-- TSEL 5, 6 or 7. -/
  | reservedTable
  /-- RSEL 9 to 15. -/
  | reservedRegister
  /-- A field outside the legality column of R78. -/
  | fieldRange
  deriving DecidableEq, Repr

/-- Bits `lo + n - 1` down to `lo` of a word (00_scope.md R11). -/
def field (w : Word) (lo n : Nat) : BitVec n := w.extractLsb' lo n

/-- TSEL, 30_encoding.md R77. -/
def Tbl.ofSel (sel : BitVec 3) : Option Tbl :=
  match sel.toNat with
  | 0 => some .lt
  | 1 => some .dt
  | 2 => some .clt
  | 3 => some .flt
  | 4 => some .fdt
  | _ => none

/-- PART, 30_encoding.md R75. -/
def Part.ofBit (b : BitVec 1) : Part := if b = 0 then .count else .sym

/-- RSEL, 44_observation.md R214. -/
def Reg.ofSel (sel : BitVec 4) : Option Reg :=
  match sel.toNat with
  | 0 => some .si
  | 1 => some .bc
  | 2 => some .tag
  | 3 => some .err
  | 4 => some .errCause
  | 5 => some .hlit
  | 6 => some .hdist
  | 7 => some .hclen
  | 8 => some .srcLen
  | _ => none

/-- Admit a decoded command only if its fields are legal (30_encoding.md R78; R79: tested after the pattern). -/
def legalOnly (i : Instr) : Except Reject Instr :=
  if i.wellFormed then .ok i else .error .fieldRange

/-- Format N (30_encoding.md R73): bits 27:0 are zero. -/
def decodeN (i : Instr) (w : Word) : Except Reject Instr :=
  if field w 0 28 = 0 then legalOnly i else .error .mustBeZero

/-- Format R (30_encoding.md R74). -/
def decodeReadbits (w : Word) : Except Reject Instr :=
  if field w 21 7 = 0 then legalOnly (.readbits (field w 16 5) (field w 0 16)) else .error .mustBeZero

/-- Apply a format-T command to the table its TSEL names (30_encoding.md R75, R77). -/
def withTable (w : Word) (mk : Tbl → Instr) : Except Reject Instr :=
  match Tbl.ofSel (field w 24 3) with
  | some tbl => legalOnly (mk tbl)
  | none => .error .reservedTable

/-- Format T, BUILD row (30_encoding.md R75). -/
def decodeBuild (w : Word) : Except Reject Instr :=
  if field w 27 1 = 0 ∧ field w 18 6 = 0 then
    withTable w fun tbl => .build tbl (field w 9 9) (field w 0 9)
  else .error .mustBeZero

/-- Format T, DECODE row (30_encoding.md R75). -/
def decodeDecode (w : Word) : Except Reject Instr :=
  if field w 27 1 = 0 ∧ field w 0 24 = 0 then withTable w .decode else .error .mustBeZero

/-- Format T, RDTAB row (30_encoding.md R75). -/
def decodeRdtab (w : Word) : Except Reject Instr :=
  if field w 27 1 = 0 ∧ field w 9 14 = 0 then
    withTable w fun tbl => .rdtab tbl (Part.ofBit (field w 23 1)) (field w 0 9)
  else .error .mustBeZero

/-- Format L, WRLENS row (30_encoding.md R76). -/
def decodeWrlens (w : Word) : Except Reject Instr :=
  if field w 25 3 = 0 ∧ field w 4 12 = 0 then legalOnly (.wrlens (field w 16 9) (field w 0 4))
  else .error .mustBeZero

/-- Format L, RDLENS row (30_encoding.md R76). -/
def decodeRdlens (w : Word) : Except Reject Instr :=
  if field w 25 3 = 0 ∧ field w 0 16 = 0 then legalOnly (.rdlens (field w 16 9)) else .error .mustBeZero

/-- Format S (30_encoding.md R76). -/
def decodeRdreg (w : Word) : Except Reject Instr :=
  if field w 4 24 = 0 then
    match Reg.ofSel (field w 0 4) with
    | some reg => legalOnly (.rdreg reg)
    | none => .error .reservedRegister
  else .error .mustBeZero

/-- The decoder: the opcode map of 30_encoding.md R78. It accepts legal words only. -/
def decodeWord (w : Word) : Except Reject Instr :=
  match (field w 28 4).toNat with
  | 0x1 => decodeN .getbit w
  | 0x2 => decodeReadbits w
  | 0x3 => decodeN .align w
  | 0x4 => decodeBuild w
  | 0x5 => decodeDecode w
  | 0x6 => decodeN .trees w
  | 0x7 => decodeWrlens w
  | 0x8 => decodeRdlens w
  | 0x9 => decodeRdtab w
  | 0xA => decodeRdreg w
  | _ => .error .reservedOpcode

/-- The command the opcode table numbers in the word `w` of `nbits` bits; one command is one 32-bit word (30_encoding.md R72). -/
def decodeTableWord (nbits w : Nat) : Option Instr :=
  (decodeWord (BitVec.ofNat 32 (w % 2 ^ nbits))).toOption

/-! ### The encoder: the field tables R73 to R76, high bits first -/

/-- TSEL of a table (30_encoding.md R77). -/
def Tbl.sel : Tbl → BitVec 3
  | .lt => 0
  | .dt => 1
  | .clt => 2
  | .flt => 3
  | .fdt => 4

/-- PART (30_encoding.md R75). -/
def Part.bit : Part → BitVec 1
  | .count => 0
  | .sym => 1

/-- RSEL of a register (44_observation.md R214). -/
def Reg.sel : Reg → BitVec 4
  | .si => 0
  | .bc => 1
  | .tag => 2
  | .err => 3
  | .errCause => 4
  | .hlit => 5
  | .hdist => 6
  | .hclen => 7
  | .srcLen => 8

/-- The word of a command (30_encoding.md R73 to R76, R82). -/
def encode : Instr → Word
  | .getbit => 0x1#4 ++ 0#28
  | .readbits n base => 0x2#4 ++ (0#7 ++ (n ++ base))
  | .align => 0x3#4 ++ 0#28
  | .build tbl off num => 0x4#4 ++ (0#1 ++ (tbl.sel ++ (0#1 ++ (0#5 ++ (off ++ num)))))
  | .decode tbl => 0x5#4 ++ (0#1 ++ (tbl.sel ++ 0#24))
  | .trees => 0x6#4 ++ 0#28
  | .wrlens idx val => 0x7#4 ++ (0#3 ++ (idx ++ (0#12 ++ val)))
  | .rdlens idx => 0x8#4 ++ (0#3 ++ (idx ++ 0#16))
  | .rdtab tbl part idx => 0x9#4 ++ (0#1 ++ (tbl.sel ++ (part.bit ++ (0#14 ++ idx))))
  | .rdreg reg => 0xA#4 ++ (0#24 ++ reg.sel)

end Sys2Proof
end

