-- ==== Sys2Proof/Machine/State.lean ====
section
/-! DEFINITION. The state of DBR (10_state.md), its ports (30_encoding.md R70), the reasons a step can stop, and the state after reset. All of it is plain data. -/

namespace Sys2Proof.Machine

/-- The STATUS of a response (30_encoding.md R71). -/
inductive Status where
  | ok | dataError | cmdError | aborted
  deriving DecidableEq, Repr

/-- The causes of a DataError (60_exceptions.md R230, codes 1 to 4). -/
inductive DataCause where
  | eoi | codeTooLong | repeatNoPrev | descOverflow
  deriving DecidableEq, Repr

/-- The causes of a CmdError (60_exceptions.md R230, codes 8 and 9). -/
inductive CmdCause where
  | illegalCmd | tableInvalid
  deriving DecidableEq, Repr

/-- Why a step stops with a fault. -/
inductive Fault where
  /-- RDLENS or BUILD reads a LENS cell that no command has written since reset: "a model faults on it"
  (10_state.md R32, 93_implementation_defined.md U6). Raised by execRdlens and execBuild. Safe. -/
  | unwrittenLens
  deriving DecidableEq, Repr

/-- Why a step is refused. -/
inductive Refusal where
  /-- An instruction that has no meaning yet; no arm of exec uses it in this model. Safe. -/
  | notModelled (mnemonic : String)
  /-- The host launches a decode call on a source of 2^32 bytes or more: 00_scope.md R9 allows SRC_LEN up to 2^32 - 1,
  and 92_eei_decisions.md D23 says that larger buffers "are refused". Raised by step. Safe. -/
  | sourceTooLong
  deriving DecidableEq, Repr

/-- How one command's procedure ends early: `raise DataError(c)` or `raise CmdError(c)` of 00_scope.md R12, or a fault of the model. -/
inductive Stop where
  | data (c : DataCause)
  | cmd (c : CmdCause)
  | fault (f : Fault)
  deriving DecidableEq, Repr

/-- Bytes by address, in the canonical form `Memory.wf` of Machine/Ops.lean. -/
abbrev Memory := List Host.Cell

/-- The launch parameters SRC and SRC_LEN (00_scope.md R9): the source space is [0, SRC_LEN) (20_memory.md R50, R59). -/
structure Source where
  mem : Memory
  len : Word
  deriving DecidableEq, Repr

/-- The reader registers SI, TAG and BC (10_state.md R20, R22, R23). -/
structure Reader where
  si : Word
  tag : Word
  bc : BitVec 6
  deriving DecidableEq, Repr

/-- The descriptor registers HLIT, HDIST and HCLEN (10_state.md R27). -/
structure Descriptor where
  hlit : BitVec 9
  hdist : BitVec 6
  hclen : BitVec 5
  deriving DecidableEq, Repr

/-- A decode table with its valid bit (10_state.md R28, R29). -/
structure Table (cap : Nat) where
  valid : Bool
  count : Vector (BitVec 9) 16
  sym : Vector (BitVec 9) cap
  deriving DecidableEq, Repr

/-- LENS: 320 cells of 4 bits; `none` is a cell no command has written since reset (10_state.md R32). -/
abbrev Lens := Vector (Option (BitVec 4)) Config.lensSize

/-- The response port (30_encoding.md R70, R71). -/
structure Response where
  status : Status
  result : Word
  deriving DecidableEq, Repr

/-- What the host does at DBR's inputs (30_encoding.md R70; 70_reset_and_hazards.md R271, R272): it gives a command word, or,
between commands, asserts reset on a source it has fixed (R263). -/
inductive HostMove where
  | command (word : Word)
  | reset (src : List Byte)
  deriving DecidableEq, Repr

/-- The state of one DBR instance and its ports. -/
structure State where
  /-- SRC and SRC_LEN. -/
  src : Source
  /-- SI, TAG and BC. -/
  reader : Reader
  /-- ERR (R24). -/
  err : Bool
  /-- ERR_CAUSE (R25). -/
  errCause : BitVec 4
  /-- RESULT (R26). -/
  result : Word
  /-- HLIT, HDIST and HCLEN. -/
  desc : Descriptor
  /-- LT and LT_V. -/
  lt : Table Config.ltCap
  /-- DT and DT_V. -/
  dt : Table Config.dtCap
  /-- CLT and CLT_V. -/
  clt : Table Config.cltCap
  /-- LENS. -/
  lens : Lens
  /-- The last response; `none` before the first one since reset. -/
  response : Option Response
  /-- What the host will do next, first move first. -/
  port : List HostMove
  /-- The model's own draw counter for free values (assumption 2). -/
  draws : Nat
  deriving DecidableEq, Repr

/-- A table nothing has built: its valid bit is 0 and its cells hold 0 (R29 leaves them unspecified; assumption 7). -/
def Table.unbuilt (cap : Nat) : Table cap :=
  { valid := false, count := Vector.replicate 16 0, sym := Vector.replicate cap 0 }

/-- The state after reset, 10_state.md R35: no source is launched, no command is waiting. -/
def State.reset : State :=
  { src := { mem := [], len := 0 }
    reader := { si := 0, tag := 0, bc := 0 }
    err := false
    errCause := 0
    result := 0
    desc := { hlit := 0, hdist := 0, hclen := 0 }
    lt := Table.unbuilt Config.ltCap
    dt := Table.unbuilt Config.dtCap
    clt := Table.unbuilt Config.cltCap
    lens := Vector.replicate Config.lensSize none
    response := none
    port := []
    draws := 0 }

/-- `CYCLES(cmd, state)`, the open timing parameter of 00_scope.md R10; no rule reads it, and no definition here does (assumption 12). -/
opaque cycles (cmd : Word) (s : State) : Nat

end Sys2Proof.Machine
end

