-- ==== Sys2Proof/Machine/Flags.lean ====
section
/-! DEFINITION. DBR's one flag ERR with its cause, and the STATUS of the response: the codes, what each ending of a command writes, and the entry into an error (60_exceptions.md R230 to R238). -/

namespace Sys2Proof.Machine

/-- STATUS encoding, 30_encoding.md R71. -/
def Status.code : Status → BitVec 2
  | .ok => 0
  | .dataError => 1
  | .cmdError => 2
  | .aborted => 3

/-- ERR_CAUSE codes 1 to 4, 60_exceptions.md R230. -/
def DataCause.code : DataCause → BitVec 4
  | .eoi => 1
  | .codeTooLong => 2
  | .repeatNoPrev => 3
  | .descOverflow => 4

/-- ERR_CAUSE codes 8 and 9, 60_exceptions.md R230. -/
def CmdCause.code : CmdCause → BitVec 4
  | .illegalCmd => 8
  | .tableInvalid => 9

/-- Give the response of a command that does not end OK: its RESULT part is a free value (30_encoding.md R71, assumption 4). -/
def State.respond (st : Status) (s : State) : State :=
  { s with response := some { status := st, result := Config.freeResponse s.draws }, draws := s.draws + 1 }

/-- `return v` (00_scope.md R12, 10_state.md R26): STATUS is OK, and the response and RESULT hold v. -/
def State.ok (v : Word) (s : State) : State :=
  { s with result := v, response := some { status := .ok, result := v } }

/-- The answer to a command refused because ERR = 1 (60_exceptions.md R237). -/
def State.abort (s : State) : State := s.respond .aborted

/-- The entry into an error, 60_exceptions.md R234: ERR, ERR_CAUSE and the response. -/
def State.enterError (st : Status) (code : BitVec 4) (s : State) : State :=
  { s with err := true, errCause := code }.respond st

/-- `raise CmdError(c)`: everything but ERR and ERR_CAUSE keeps its value (60_exceptions.md R236).
While ERR = 1 nothing is raised and the answer is ABORTED (R237). -/
def State.raiseCmd (c : CmdCause) (s : State) : State :=
  if s.err then s.abort else s.enterError .cmdError c.code

/-- The working state of a table after a DataError (60_exceptions.md R236, 93_implementation_defined.md U3). -/
def Table.drawn (draw sel cap : Nat) : Table cap :=
  { valid := Config.freeValid draw sel
    count := Vector.ofFn fun l => Config.freeCount draw sel l.val
    sym := Vector.ofFn fun i => Config.freeSym draw sel i.val }

/-- Every value that is unspecified after a DataError, drawn (60_exceptions.md R236, 93_implementation_defined.md U3, assumption 3). -/
def State.scramble (s : State) : State :=
  { s with
    reader := { si := Config.freeSi s.draws, tag := Config.freeTag s.draws, bc := Config.freeBc s.draws }
    result := Config.freeResult s.draws
    desc :=
      { hlit := Config.freeHlit s.draws, hdist := Config.freeHdist s.draws, hclen := Config.freeHclen s.draws }
    lt := Table.drawn s.draws 0 Config.ltCap
    dt := Table.drawn s.draws 1 Config.dtCap
    clt := Table.drawn s.draws 2 Config.cltCap
    lens := Vector.ofFn fun i => some (Config.freeLens s.draws i.val)
    draws := s.draws + 1 }

/-- `raise DataError(c)`, 60_exceptions.md R234, R236. -/
def State.raiseData (c : DataCause) (s : State) : State :=
  s.scramble.enterError .dataError c.code

/-- Whether the working state is what a DataError left: unspecified (60_exceptions.md R236). -/
def State.scrambled (s : State) : Bool :=
  s.err && decide (s.errCause.toNat ≤ 4)

end Sys2Proof.Machine
end

