-- ==== Sys2Proof/Machine/Operands.lean ====
section
/-! DEFINITION. What a command's operands name: a table by TSEL, a cell by its index, a register by RSEL. Every operand is unsigned and zero-extended (30_encoding.md R81). -/

namespace Sys2Proof.Machine

/-- `T.count[L]` as a number. -/
def Table.countAt {cap : Nat} (t : Table cap) (l : Nat) : Nat := (t.count[l]?.getD 0).toNat

/-- `T.sym[i]`; past the capacity, where no run reads (42_symbol_decoder.md R163), a free value (assumption 6). -/
def Table.symAt {cap : Nat} (t : Table cap) (i : Nat) : BitVec 9 := t.sym[i]?.getD (Config.freeBeyond i)

/-- `USED_T`, 10_state.md R28. -/
def Table.used {cap : Nat} (t : Table cap) : Nat := (t.count.toList.map BitVec.toNat).sum

/-- `LENS[i]`; `none` where the cell is unwritten (10_state.md R32). -/
def Lens.cell (l : Lens) (i : Nat) : Option (BitVec 4) := (l[i]?).join

/-- `LENS[i] <- v`. -/
def Lens.write (l : Lens) (i : Nat) (v : Option (BitVec 4)) : Lens := l.setIfInBounds i v

/-- `LENS[off .. off+num-1]`; `none` where a cell of the range is unwritten. -/
def Lens.cells (l : Lens) (off : Nat) : Nat → Option (List (BitVec 4))
  | 0 => some []
  | num + 1 =>
    match Lens.cell l off with
    | none => none
    | some v =>
      match Lens.cells l (off + 1) num with
      | none => none
      | some vs => some (v :: vs)

/-- FLT, 41_tree_builder.md R140. -/
def fltSyms : List (BitVec 9) :=
  (List.range' 256 24 ++ List.range' 0 144 ++ (List.range' 280 8 ++ List.range' 144 112)).map (BitVec.ofNat 9)

/-- FDT, 41_tree_builder.md R141. -/
def fdtSyms : List (BitVec 9) := (List.range' 0 32).map (BitVec.ofNat 9)

/-- The constant table FLT (10_state.md R30, 41_tree_builder.md R140). -/
def Table.flt : Table Config.ltCap :=
  { valid := true
    count := #v[0, 0, 0, 0, 0, 0, 0, 24, 152, 112, 0, 0, 0, 0, 0, 0]
    sym := { toArray := fltSyms.toArray, size_toArray := by simp [fltSyms] } }

/-- The constant table FDT (10_state.md R30, 41_tree_builder.md R141). -/
def Table.fdt : Table Config.dtCap :=
  { valid := true
    count := #v[0, 0, 0, 0, 0, 32, 0, 0, 0, 0, 0, 0, 0, 0, 0, 0]
    sym := { toArray := fdtSyms.toArray, size_toArray := by simp [fdtSyms] } }

/-- The table a command names (30_encoding.md R77). -/
def State.table (s : State) : (tbl : Tbl) → Table tbl.cap
  | .lt => s.lt
  | .dt => s.dt
  | .clt => s.clt
  | .flt => Table.flt
  | .fdt => Table.fdt

/-- Replace a writable table; FLT and FDT are constant and no command writes them (10_state.md R30). -/
def State.setTable (s : State) : (tbl : Tbl) → Table tbl.cap → State
  | .lt, t => { s with lt := t }
  | .dt, t => { s with dt := t }
  | .clt, t => { s with clt := t }
  | .flt, _ => s
  | .fdt, _ => s

/-- `REG(RSEL)`, zero-extended (44_observation.md R214). -/
def State.reg (s : State) : Reg → Word
  | .si => s.reader.si
  | .bc => s.reader.bc.setWidth 32
  | .tag => s.reader.tag
  | .err => (BitVec.ofBool s.err).setWidth 32
  | .errCause => s.errCause.setWidth 32
  | .hlit => s.desc.hlit.setWidth 32
  | .hdist => s.desc.hdist.setWidth 32
  | .hclen => s.desc.hclen.setWidth 32
  | .srcLen => s.src.len

end Sys2Proof.Machine
end

