-- ==== Sys2Proof/Machine/Ops.lean ====
section
/-! DEFINITION. The shared operations: the source space, the reader's REFILL, TAKE and READF, the table builder BUILDPROC, the symbol decoder DECODEPROC, and the common checks that open and close every command. -/

namespace Sys2Proof.Machine

/-! ### The source space (20_memory.md) -/

/-- What an address with no entry holds: a byte of SRC whose value is 0 is not listed (assumption 8). -/
def Memory.unlisted : Byte := 0

/-- The canonical form of a memory: addresses strictly rising, no entry equal to what an unlisted address reads as. -/
abbrev Memory.wf (m : Memory) : Prop :=
  m.Pairwise (fun a b => a.1 < b.1) ∧ ∀ c ∈ m, c.2 ≠ Memory.unlisted

/-- The byte at an address. -/
def Memory.read : Memory → Nat → Byte
  | [], _ => Memory.unlisted
  | (k, b) :: rest, a => if k = a then b else Memory.read rest a

/-- The memory that holds the listed bytes from address `a` on. -/
def Memory.ofBytes : Nat → List Byte → Memory
  | _, [] => []
  | a, b :: rest => if b = Memory.unlisted then Memory.ofBytes (a + 1) rest else (a, b) :: Memory.ofBytes (a + 1) rest

/-- The source space in its canonical form: nothing stands at or past SRC_LEN (20_memory.md R50, R59). -/
abbrev Source.wf (src : Source) : Prop :=
  Memory.wf src.mem ∧ ∀ c ∈ src.mem, c.1 < src.len.toNat

/-- The source space the host launches: SRC is the byte array, SRC_LEN its length (00_scope.md R9). -/
def Source.ofBytes (bytes : List Byte) : Source :=
  { mem := Memory.ofBytes 0 bytes, len := BitVec.ofNat 32 bytes.length }

/-- `SrcRead(a)`, 20_memory.md R52: DBR's only memory access, one byte, with no side effect. -/
def Source.read (src : Source) (a : Nat) : Byte := Memory.read src.mem a

/-! ### The bitstream reader (40_bitstream_reader.md) -/

/-- One pass of REFILL's loop, if its condition holds (40_bitstream_reader.md R101). -/
def Reader.refillStep (src : Source) (r : Reader) : Reader :=
  if r.bc.toNat < Config.refillTarget ∧ r.si.toNat < src.len.toNat then
    { tag := r.tag ||| ((src.read r.si.toNat).setWidth 32 <<< r.bc.toNat)
      si := r.si + 1
      bc := r.bc + 8 }
  else r

/-- `REFILL()`, 40_bitstream_reader.md R101: three passes are enough, because each adds 8 bits (20_memory.md R53). -/
def Reader.refill (src : Source) (r : Reader) : Reader :=
  ((r.refillStep src).refillStep src).refillStep src

/-- `TAKE(n)`, 40_bitstream_reader.md R102. -/
def Reader.take (n : Nat) (r : Reader) : Except Stop (Word × Reader) :=
  if r.bc.toNat < n then .error (.data .eoi)
  else
    .ok (r.tag &&& ((1#32 <<< n) - 1#32),
      { si := r.si, tag := r.tag >>> n, bc := r.bc - BitVec.ofNat 6 n })

/-- `REFILL(); TAKE(n) + base` as a number: READF of 43_tree_descriptor.md R180, and the read of READBITS with n ≥ 1. -/
def Reader.readf (src : Source) (n base : Nat) (r : Reader) : Except Stop (Nat × Reader) :=
  match (r.refill src).take n with
  | .error e => .error e
  | .ok (v, r') => .ok (v.toNat + base, r')

/-- The three assignments of ALIGN, 40_bitstream_reader.md R106. -/
def Reader.align (r : Reader) : Reader :=
  { si := r.si - (r.bc >>> 3).setWidth 32, tag := 0, bc := 0 }

/-! ### The table builder (41_tree_builder.md R132) -/

/-- The cell of a 16-cell array that a 4-bit length names. -/
def cellOf {α : Type} (v : Vector α 16) (l : BitVec 4) : α := v[l.toNat]'(l.isLt)

/-- The array with the cell that a 4-bit length names replaced. -/
def setCell {α : Type} (v : Vector α 16) (l : BitVec 4) (x : α) : Vector α 16 := v.set l.toNat x l.isLt

/-- Steps 1 and 2: zero the counts, then count each length. -/
def countLengths (ls : List (BitVec 4)) : Vector (BitVec 9) 16 :=
  ls.foldl (fun c l => setCell c l (cellOf c l + 1)) (Vector.replicate 16 0)

/-- Step 4: `OFFS[L]` is the sum of the counts of the lengths below L. -/
def prefixSums (count : Vector (BitVec 9) 16) : Vector Nat 16 :=
  Vector.ofFn fun l => ((count.toList.take l.val).map BitVec.toNat).sum

/-- Step 5, from symbol `i` on: each symbol of non-zero length goes to the next place of its length. -/
def placeSyms {cap : Nat} : List (BitVec 4) → Nat → Vector (BitVec 9) cap → Vector Nat 16 → Vector (BitVec 9) cap
  | [], _, sym, _ => sym
  | l :: ls, i, sym, offs =>
    if l = 0 then placeSyms ls (i + 1) sym offs
    else
      placeSyms ls (i + 1) (sym.setIfInBounds (cellOf offs l) (BitVec.ofNat 9 i))
        (setCell offs l (cellOf offs l + 1))

/-- BUILDPROC over the lengths of its LENS range, 41_tree_builder.md R132. -/
def Table.build {cap : Nat} (t : Table cap) (ls : List (BitVec 4)) : Table cap :=
  let count := (countLengths ls).set 0 0
  { valid := true, count := count, sym := placeSyms ls 0 t.sym (prefixSums count) }

/-- `BUILDPROC(T, off, num)`, 41_tree_builder.md R132; an unwritten cell in the range is a fault (10_state.md R32). -/
def Table.buildProc {cap : Nat} (t : Table cap) (lens : Lens) (off num : Nat) : Except Stop (Table cap) :=
  match Lens.cells lens off num with
  | none => .error (.fault .unwrittenLens)
  | some ls => .ok (t.build ls)

/-! ### The symbol decoder (42_symbol_decoder.md R161) -/

/-- The loop of DECODEPROC over the lengths still to try. `cur` and `sum` are exact numbers; `cur` is never negative. -/
def Table.decodeLoop {cap : Nat} (t : Table cap) : List Nat → Nat → Nat → Reader → Except Stop (BitVec 9 × Reader)
  | [], _, _, _ => .error (.data .codeTooLong)
  | l :: ls, cur, sum, r =>
    match r.take 1 with
    | .error e => .error e
    | .ok (b, r') =>
      if 2 * cur + b.toNat < t.countAt l then .ok (t.symAt (sum + (2 * cur + b.toNat)), r')
      else t.decodeLoop ls (2 * cur + b.toNat - t.countAt l) (sum + t.countAt l) r'

/-- `DECODEPROC(T)`, 42_symbol_decoder.md R161. -/
def Table.decodeProc {cap : Nat} (t : Table cap) (src : Source) (r : Reader) : Except Stop (BitVec 9 × Reader) :=
  t.decodeLoop (List.range' 1 Config.maxCodeLen) 0 0 (r.refill src)

/-! ### Opening and closing a command (60_exceptions.md R233) -/

/-- The end of a command whose procedure ran on `s`: it returns, raises an error, or faults. -/
def finish (r : Except Stop (Word × State)) (s : State) : Host.Outcome State Fault Refusal :=
  match r with
  | .ok (v, t) => .next (t.ok v)
  | .error (.data c) => .next (s.raiseData c)
  | .error (.cmd c) => .next (s.raiseCmd c)
  | .error (.fault f) => .fault f

/-- The legality test, before the command's procedure (60_exceptions.md R232). -/
def checked (legal : Bool) (proc : State → Except Stop (Word × State)) (s : State) :
    Host.Outcome State Fault Refusal :=
  if legal then finish (proc s) s else .next (s.raiseCmd .illegalCmd)

/-- An observation command: it runs whatever ERR is (60_exceptions.md R237). -/
def observe (legal : Bool) (proc : State → Except Stop (Word × State)) (s : State) :
    Host.Outcome State Fault Refusal :=
  checked legal proc s

/-- Any other command: ABORTED while ERR = 1, before every other test (60_exceptions.md R233, R237). -/
def command (legal : Bool) (proc : State → Except Stop (Word × State)) (s : State) :
    Host.Outcome State Fault Refusal :=
  if s.err then .next s.abort else checked legal proc s

/-- An illegal command word, 60_exceptions.md R232. -/
def illegalWord (s : State) : State := s.raiseCmd .illegalCmd

end Sys2Proof.Machine
end

