-- ==== Sys2Proof/Machine/Bitstream.lean ====
section
/-! DEFINITION. The bitstream reader's commands GETBIT, READBITS and ALIGN (40_bitstream_reader.md). -/

namespace Sys2Proof.Machine

/-- REFILL, TAKE(n), and the sum with base (40_bitstream_reader.md R103, R104). -/
def readField (n base : Nat) (s : State) : Except Stop (Word × State) :=
  match s.reader.readf s.src n base with
  | .error e => .error e
  | .ok (v, r) => .ok (BitVec.ofNat 32 v, { s with reader := r })

/-- `GETBIT`, 40_bitstream_reader.md R103. -/
def execGetbit (s : State) : Host.Outcome State Fault Refusal :=
  command Instr.getbit.wellFormed (readField 1 0) s

/-- The procedure of READBITS: with n = 0 it reads nothing and does not refill (40_bitstream_reader.md R104, R105). -/
def readbitsProc (n : BitVec 5) (base : BitVec 16) (s : State) : Except Stop (Word × State) :=
  if n = 0 then .ok (base.setWidth 32, s) else readField n.toNat base.toNat s

/-- `READBITS n, base`, 40_bitstream_reader.md R104. -/
def execReadbits (n : BitVec 5) (base : BitVec 16) (s : State) : Host.Outcome State Fault Refusal :=
  command (Instr.readbits n base).wellFormed (readbitsProc n base) s

/-- `ALIGN`, 40_bitstream_reader.md R106. -/
def execAlign (s : State) : Host.Outcome State Fault Refusal :=
  command Instr.align.wellFormed (fun s => .ok (0, { s with reader := s.reader.align })) s

end Sys2Proof.Machine
end

