-- ==== Sys2Proof/Machine/Builder.lean ====
section
/-! DEFINITION. The table builder's commands WRLENS and BUILD (41_tree_builder.md). -/

namespace Sys2Proof.Machine

/-- `WRLENS idx, val`, 41_tree_builder.md R130. -/
def execWrlens (idx : BitVec 9) (val : BitVec 4) (s : State) : Host.Outcome State Fault Refusal :=
  command (Instr.wrlens idx val).wellFormed
    (fun s => .ok (0, { s with lens := Lens.write s.lens idx.toNat (some val) })) s

/-- The procedure of BUILD, 41_tree_builder.md R131: RESULT is USED. -/
def buildTableProc (tbl : Tbl) (off num : Nat) (s : State) : Except Stop (Word × State) :=
  match (s.table tbl).buildProc s.lens off num with
  | .error e => .error e
  | .ok t => .ok (BitVec.ofNat 32 t.used, s.setTable tbl t)

/-- `BUILD tbl, off, num`, 41_tree_builder.md R131. -/
def execBuild (tbl : Tbl) (off num : BitVec 9) (s : State) : Host.Outcome State Fault Refusal :=
  command (Instr.build tbl off num).wellFormed (buildTableProc tbl off.toNat num.toNat) s

end Sys2Proof.Machine
end

