-- ==== Sys2Proof/Machine/Decoder.lean ====
section
/-! DEFINITION. The symbol decoder's command DECODE (42_symbol_decoder.md). -/

namespace Sys2Proof.Machine

/-- The procedure of DECODE, 42_symbol_decoder.md R160: an unbuilt table is refused before anything changes. -/
def decodeTableProc (tbl : Tbl) (s : State) : Except Stop (Word × State) :=
  if (s.table tbl).valid then
    match (s.table tbl).decodeProc s.src s.reader with
    | .error e => .error e
    | .ok (v, r) => .ok (v.setWidth 32, { s with reader := r })
  else .error (.cmd .tableInvalid)

/-- `DECODE tbl`, 42_symbol_decoder.md R160. -/
def execDecode (tbl : Tbl) (s : State) : Host.Outcome State Fault Refusal :=
  command (Instr.decode tbl).wellFormed (decodeTableProc tbl) s

end Sys2Proof.Machine
end

