-- ==== Sys2Proof/Machine/Observe.lean ====
section
/-! DEFINITION. The observation commands RDLENS, RDTAB and RDREG (44_observation.md). -/

namespace Sys2Proof.Machine

/-- The procedure of RDLENS, 44_observation.md R210; an unwritten cell is a fault (10_state.md R32). -/
def rdlensProc (idx : Nat) (s : State) : Except Stop (Word × State) :=
  match Lens.cell s.lens idx with
  | none => .error (.fault .unwrittenLens)
  | some v => .ok (v.setWidth 32, s)

/-- `RDLENS idx`, 44_observation.md R210. -/
def execRdlens (idx : BitVec 9) (s : State) : Host.Outcome State Fault Refusal :=
  observe (Instr.rdlens idx).wellFormed (rdlensProc idx.toNat) s

/-- The procedure of RDTAB, 44_observation.md R212; a stale cell gives a free value (41_tree_builder.md R136, assumption 5). -/
def rdtabProc (tbl : Tbl) (part : Part) (idx : Nat) (s : State) : Except Stop (Word × State) :=
  if (s.table tbl).valid then
    match part with
    | .count => .ok (BitVec.ofNat 32 ((s.table tbl).countAt idx), s)
    | .sym =>
      if idx < (s.table tbl).used then .ok (((s.table tbl).symAt idx).setWidth 32, s)
      else .ok ((Config.freeStale s.draws).setWidth 32, { s with draws := s.draws + 1 })
  else .error (.cmd .tableInvalid)

/-- `RDTAB tbl, part, idx`, 44_observation.md R212. -/
def execRdtab (tbl : Tbl) (part : Part) (idx : BitVec 9) (s : State) : Host.Outcome State Fault Refusal :=
  observe (Instr.rdtab tbl part idx).wellFormed (rdtabProc tbl part idx.toNat) s

/-- `RDREG reg`, 44_observation.md R214. -/
def execRdreg (reg : Reg) (s : State) : Host.Outcome State Fault Refusal :=
  observe (Instr.rdreg reg).wellFormed (fun s => .ok (s.reg reg, s)) s

end Sys2Proof.Machine
end

