-- ==== Sys2Proof/Machine/Trees.lean ====
section
/-! DEFINITION. The tree descriptor parser's command TREES (43_tree_descriptor.md R180 to R198). -/

namespace Sys2Proof.Machine

/-- The three header fields, in order (43_tree_descriptor.md R182). -/
def readHeader (src : Source) (r : Reader) : Except Stop (Descriptor × Reader) :=
  match r.readf src 5 257 with
  | .error e => .error e
  | .ok (hlit, r1) =>
    match r1.readf src 5 1 with
    | .error e => .error e
    | .ok (hdist, r2) =>
      match r2.readf src 4 4 with
      | .error e => .error e
      | .ok (hclen, r3) =>
        .ok ({ hlit := BitVec.ofNat 9 hlit, hdist := BitVec.ofNat 6 hdist, hclen := BitVec.ofNat 5 hclen }, r3)

/-- `LENS[i] <- v` for the n cells from `i` on: the clearing loop of R183 and the repeat loop of R190. -/
def Lens.fill (l : Lens) (i : Nat) (v : Option (BitVec 4)) : Nat → Lens
  | 0 => l
  | n + 1 => Lens.fill (Lens.write l i v) (i + 1) v n

/-- The 3-bit code-length-alphabet lengths, each stored at the next index of the given order (43_tree_descriptor.md R183). -/
def readClLengths (src : Source) : List Nat → Lens → Reader → Except Stop (Lens × Reader)
  | [], l, r => .ok (l, r)
  | i :: order, l, r =>
    match r.readf src 3 0 with
    | .error e => .error e
    | .ok (v, r') => readClLengths src order (Lens.write l i (some (BitVec.ofNat 4 v))) r'

/-- The value and the count of a repeat symbol; `num` entries are written (43_tree_descriptor.md R188, R189). -/
def readRepeat (src : Source) (sym num : Nat) (l : Lens) (r : Reader) :
    Except Stop (Option (BitVec 4) × Nat × Reader) :=
  if sym = 16 then
    if num = 0 then .error (.data .repeatNoPrev)
    else
      match r.readf src 2 3 with
      | .error e => .error e
      | .ok (n, r') => .ok (Lens.cell l (num - 1), n, r')
  else if sym = 17 then
    match r.readf src 3 3 with
    | .error e => .error e
    | .ok (n, r') => .ok (some 0, n, r')
  else
    match r.readf src 7 11 with
    | .error e => .error e
    | .ok (n, r') => .ok (some 0, n, r')

/-- The loop that fills the sequence of `total` code lengths (43_tree_descriptor.md R185 to R190).
Each pass writes at least one entry, so `total` passes are enough (70_reset_and_hazards.md R277). -/
def readSequence (src : Source) (clt : Table Config.cltCap) (total : Nat) :
    Nat → Nat → Lens → Reader → Except Stop (Lens × Reader)
  | 0, _, l, r => .ok (l, r)
  | passes + 1, num, l, r =>
    if num < total then
      match clt.decodeProc src r with
      | .error e => .error e
      | .ok (sym, r1) =>
        if sym.toNat ≤ 15 then
          readSequence src clt total passes (num + 1) (Lens.write l num (some (sym.setWidth 4))) r1
        else
          match readRepeat src sym.toNat num l r1 with
          | .error e => .error e
          | .ok (val, n, r2) =>
            if num + n > total then .error (.data .descOverflow)
            else readSequence src clt total passes (num + n) (Lens.fill l num val n) r2
    else .ok (l, r)

/-- The RESULT of TREES, 43_tree_descriptor.md R192. -/
def Descriptor.pack (d : Descriptor) : Word :=
  d.hlit.setWidth 32 ||| (d.hdist.setWidth 32 <<< 9) ||| (d.hclen.setWidth 32 <<< 15)

/-- The procedure of TREES, 43_tree_descriptor.md R181. -/
def treesProc (s : State) : Except Stop (Word × State) :=
  match readHeader s.src s.reader with
  | .error e => .error e
  | .ok (d, r1) =>
    match readClLengths s.src (Config.clcidx.take d.hclen.toNat) (Lens.fill s.lens 0 (some 0) 19) r1 with
    | .error e => .error e
    | .ok (l1, r2) =>
      match s.clt.buildProc l1 0 19 with
      | .error e => .error e
      | .ok clt =>
        match readSequence s.src clt (d.hlit.toNat + d.hdist.toNat) (d.hlit.toNat + d.hdist.toNat) 0 l1 r2 with
        | .error e => .error e
        | .ok (l2, r3) =>
          match s.lt.buildProc l2 0 d.hlit.toNat with
          | .error e => .error e
          | .ok lt =>
            match s.dt.buildProc l2 d.hlit.toNat d.hdist.toNat with
            | .error e => .error e
            | .ok dt =>
              .ok (d.pack, { s with reader := r3, desc := d, lens := l2, clt := clt, lt := lt, dt := dt })

/-- `TREES`, 43_tree_descriptor.md R181. -/
def execTrees (s : State) : Host.Outcome State Fault Refusal :=
  command Instr.trees.wellFormed treesProc s

end Sys2Proof.Machine
end

