-- ==== Sys2Proof/Machine/Dispatch.lean ====
section
/-! DEFINITION. Which meaning each command has: one arm per constructor of Instr. -/

namespace Sys2Proof.Machine

def exec (i : Instr) (s : State) : Host.Outcome State Fault Refusal :=
  match i with
  | .getbit => Sys2Proof.Machine.execGetbit s
  | .readbits n base => Sys2Proof.Machine.execReadbits n base s
  | .align => Sys2Proof.Machine.execAlign s
  | .build tbl off num => Sys2Proof.Machine.execBuild tbl off num s
  | .decode tbl => Sys2Proof.Machine.execDecode tbl s
  | .trees => Sys2Proof.Machine.execTrees s
  | .wrlens idx val => Sys2Proof.Machine.execWrlens idx val s
  | .rdlens idx => Sys2Proof.Machine.execRdlens idx s
  | .rdtab tbl part idx => Sys2Proof.Machine.execRdtab tbl part idx s
  | .rdreg reg => Sys2Proof.Machine.execRdreg reg s

end Sys2Proof.Machine
end

