-- ==== Sys2Proof/Machine/Fetch.lean ====
section
/-! DEFINITION. What a move of the host does: a command word is decoded and run, or refused as illegal; a reset starts a decode call. -/

namespace Sys2Proof.Machine

/-- A command word from the command port: a legal word runs its command, any other is illegal (30_encoding.md R78, R80). -/
def runWord (w : Word) (s : State) : Host.Outcome State Fault Refusal :=
  match decodeWord w with
  | .ok i => exec i s
  | .error _ => .next (illegalWord s)

/-- Reset on the source the host has fixed (70_reset_and_hazards.md R260, R263).
A source that SRC_LEN cannot hold is refused (00_scope.md R9, 92_eei_decisions.md D23). -/
def launch (bytes : List Byte) (s : State) : Host.Outcome State Fault Refusal :=
  if bytes.length < 2 ^ 32 then
    .next { State.reset with src := Source.ofBytes bytes, port := s.port, draws := s.draws }
  else .refused .sourceTooLong

end Sys2Proof.Machine
end

