-- ==== Sys2Proof/Machine/Step.lean ====
section
/-! DEFINITION. One step of DBR: it takes the host's next move from its ports (30_encoding.md R70, 70_reset_and_hazards.md R261, R272). -/

namespace Sys2Proof.Machine

/-- One step. With no move from the host DBR waits, and nothing changes (60_exceptions.md R234, 70_reset_and_hazards.md R261). -/
def step (s : State) : Host.Outcome State Fault Refusal :=
  match s.port with
  | [] => .next s
  | .command w :: rest => runWord w { s with port := rest }
  | .reset bytes :: rest => launch bytes { s with port := rest }

/-- The state whose next step takes the command word `w` of `nbits` bits from the command port. -/
def State.withFetchWord (s : State) (nbits w : Nat) : State :=
  { s with port := .command (BitVec.ofNat 32 (w % 2 ^ nbits)) :: s.port }

end Sys2Proof.Machine
end

