-- ==== Sys2Proof/Machine/Asm.lean ====
section
/-! DEFINITION. The assembler syntax of 30_encoding.md R82 with the pseudo-instructions of R83: one line of text to at most one command. -/

namespace Sys2Proof.Machine

/-- The value of a digit. -/
def digitOf (c : Char) : Option Nat :=
  if '0'.toNat ≤ c.toNat ∧ c.toNat ≤ '9'.toNat then some (c.toNat - '0'.toNat)
  else if 'a'.toNat ≤ c.toNat ∧ c.toNat ≤ 'f'.toNat then some (c.toNat - 'a'.toNat + 10)
  else if 'A'.toNat ≤ c.toNat ∧ c.toNat ≤ 'F'.toNat then some (c.toNat - 'A'.toNat + 10)
  else none

/-- A run of digits of the given base. -/
def digits (base : Nat) : List Char → Nat → Option Nat
  | [], acc => some acc
  | c :: cs, acc =>
    match digitOf c with
    | none => none
    | some d => if d < base then digits base cs (base * acc + d) else none

/-- A number, in decimal or `0x` hexadecimal. -/
def number : List Char → Option Nat
  | [] => none
  | '0' :: 'x' :: c :: cs => digits 16 (c :: cs) 0
  | c :: cs => digits 10 (c :: cs) 0

/-- A number that fits its field. DESIGN CHOICE: 30_encoding.md R82 does not say what a line assembles to whose number
is wider than its field; the model rejects the line (assumption 17). -/
def fieldNumber (n : Nat) (cs : List Char) : Option (BitVec n) :=
  match number cs with
  | none => none
  | some v => if v < 2 ^ n then some (BitVec.ofNat n v) else none

/-- The text without the blanks around it. -/
def trim (cs : List Char) : List Char :=
  ((cs.dropWhile (· == ' ')).reverse.dropWhile (· == ' ')).reverse

/-- The operands between the commas. -/
def operands : List Char → List Char → List (List Char)
  | [], cur => [trim cur.reverse]
  | c :: cs, cur => if c = ',' then trim cur.reverse :: operands cs [] else operands cs (c :: cur)

/-- `tbl`, 30_encoding.md R82. -/
def tblNamed (cs : List Char) : Option Tbl :=
  if cs = ['L', 'T'] then some .lt
  else if cs = ['D', 'T'] then some .dt
  else if cs = ['C', 'L', 'T'] then some .clt
  else if cs = ['F', 'L', 'T'] then some .flt
  else if cs = ['F', 'D', 'T'] then some .fdt
  else none

/-- `count` or `sym`, 30_encoding.md R82. -/
def partNamed (cs : List Char) : Option Part :=
  if cs = ['c', 'o', 'u', 'n', 't'] then some .count
  else if cs = ['s', 'y', 'm'] then some .sym
  else none

/-- `reg`, 30_encoding.md R82. -/
def regNamed (cs : List Char) : Option Reg :=
  if cs = "SI".toList then some .si
  else if cs = "BC".toList then some .bc
  else if cs = "TAG".toList then some .tag
  else if cs = "ERR".toList then some .err
  else if cs = "ERR_CAUSE".toList then some .errCause
  else if cs = "HLIT".toList then some .hlit
  else if cs = "HDIST".toList then some .hdist
  else if cs = "HCLEN".toList then some .hclen
  else if cs = "SRC_LEN".toList then some .srcLen
  else none

/-- A mnemonic without operands, the pseudo-instructions of 30_encoding.md R83 among them. -/
def plainCommand (name : List Char) : Option Instr :=
  if name = "GETBIT".toList then some .getbit
  else if name = "ALIGN".toList then some .align
  else if name = "TREES".toList then some .trees
  else if name = "READBYTE".toList then some Instr.readByte
  else if name = "READU16".toList then some Instr.readU16
  else if name = "BFINAL".toList then some Instr.bfinal
  else if name = "BTYPE".toList then some Instr.btype
  else none

/-- A mnemonic with its operands, 30_encoding.md R82. -/
def operandCommand (name : List Char) (ops : List (List Char)) : Option Instr :=
  match ops with
  | [] => none
  | [a] =>
    if name = "DECODE".toList then (tblNamed a).map .decode
    else if name = "RDLENS".toList then (fieldNumber 9 a).map .rdlens
    else if name = "RDREG".toList then (regNamed a).map .rdreg
    else none
  | [a, b] =>
    if name = "READBITS".toList then
      (fieldNumber 5 a).bind fun n => (fieldNumber 16 b).map fun base => .readbits n base
    else if name = "WRLENS".toList then
      (fieldNumber 9 a).bind fun idx => (fieldNumber 4 b).map fun val => .wrlens idx val
    else none
  | [a, b, c] =>
    if name = "BUILD".toList then
      (tblNamed a).bind fun tbl => (fieldNumber 9 b).bind fun off => (fieldNumber 9 c).map fun num =>
        .build tbl off num
    else if name = "RDTAB".toList then
      (tblNamed a).bind fun tbl => (partNamed b).bind fun part => (fieldNumber 9 c).map fun idx =>
        .rdtab tbl part idx
    else none
  | _ => none

/-- One line: a comment starts at `;`, and a line of nothing else assembles to no command (`some none`); `none` is a line the syntax does not have. -/
def assembleLine (line : List Char) : Option (Option Instr) :=
  let text := trim (line.takeWhile (· != ';'))
  let name := text.takeWhile (· != ' ')
  let rest := trim (text.dropWhile (· != ' '))
  if text = [] then some none
  else if rest = [] then (plainCommand name).map some
  else (operandCommand name (operands rest [])).map some

/-- The command word a line assembles to, if it assembles to one. -/
def assembleWord (line : String) : Option Word :=
  match assembleLine line.toList with
  | some (some i) => some (encode i)
  | _ => none

end Sys2Proof.Machine
end

