-- ==== Sys2Proof/Machine/Abstract.lean ====
section
/-! DEFINITION. The abstract reader of 40_bitstream_reader.md R109, the canonical code of 41_tree_builder.md R133, R137, and the tree descriptor over them: what the commands mean as functions of the stream position P alone. Claims compare the machine with these; the machine does not use them. -/

namespace Sys2Proof.Machine

/-! ### The bit stream -/

/-- Stream bit k: bit `k mod 8` of byte `SRC[k div 8]` (20_memory.md R54). -/
def Source.bit (src : Source) (k : Nat) : Bool := (src.read (k / 8)).getLsbD (k % 8)

/-- `8*SRC_LEN`, the number of stream bits (20_memory.md R60). -/
def Source.size (src : Source) : Nat := 8 * src.len.toNat

/-- The n-bit integer field at position p: the first bit is the least significant (20_memory.md R55). -/
def Source.fieldAt (src : Source) (p : Nat) : Nat → Nat
  | 0 => 0
  | n + 1 => (src.bit p).toNat + 2 * src.fieldAt (p + 1) n

/-- The n stream bits at position p as a code: the first bit is the most significant (20_memory.md R56). -/
def Source.codeAt (src : Source) (p : Nat) : Nat → Nat
  | 0 => 0
  | n + 1 => 2 * src.codeAt p n + (src.bit (p + n)).toNat

/-- The stream position `P = 8*SI - BC` (00_scope.md R14, 10_state.md R21). -/
def Reader.pos (r : Reader) : Nat := 8 * r.si.toNat - r.bc.toNat

/-- Reading an n-bit field at P: it fails exactly when fewer than n bits are left (40_bitstream_reader.md R109). -/
def Source.readAt (src : Source) (p n : Nat) : Except DataCause Nat :=
  if p + n ≤ src.size then .ok (src.fieldAt p n) else .error .eoi

/-! ### The canonical code -/

/-- `count[L]` of a list of code lengths: how many symbols have length L; `count[0]` is 0 (10_state.md R28). -/
def lengthCount (ls : List (BitVec 4)) (l : Nat) : Nat :=
  if l = 0 then 0 else ls.countP fun v => v.toNat == l

/-- The symbols of length L, ascending. -/
def symsOfLength (ls : List (BitVec 4)) (l : Nat) : List Nat :=
  (List.range ls.length).filter fun i => (ls[i]?.getD 0).toNat == l

/-- The used symbols in sorted order: by length, then by symbol (41_tree_builder.md R133). -/
def sortedSyms (ls : List (BitVec 4)) : List Nat :=
  (List.range' 1 Config.maxCodeLen).flatMap (symsOfLength ls)

/-- `Σ_{k<L} count[k]`. -/
def sumBelow (count : Nat → Nat) : Nat → Nat
  | 0 => 0
  | l + 1 => sumBelow count l + count l

/-- `F[L]`, the first code of length L (41_tree_builder.md R137). -/
def firstCode (count : Nat → Nat) : Nat → Nat
  | 0 => 0
  | 1 => 0
  | l + 2 => 2 * (firstCode count (l + 1) + count (l + 1))

/-- Whether the L stream bits at p are the code of a symbol of length L (41_tree_builder.md R137). -/
abbrev Source.codeEnds (src : Source) (count : Nat → Nat) (p l : Nat) : Prop :=
  firstCode count l ≤ src.codeAt p l ∧ src.codeAt p l < firstCode count l + count l

/-- The place, in sorted order, of the symbol whose code is the L bits at p (42_symbol_decoder.md R162). -/
def Source.codePlace (src : Source) (count : Nat → Nat) (p l : Nat) : Nat :=
  sumBelow count l + (src.codeAt p l - firstCode count l)

/-- Decoding at P: the first of the lengths tried at which a code ends gives the place of the symbol and the new position
(42_symbol_decoder.md R162, R164). -/
def Source.decodeAt (src : Source) (count : Nat → Nat) (p : Nat) : List Nat → Except DataCause (Nat × Nat)
  | [] => .error .codeTooLong
  | l :: ls =>
    if src.size < p + l then .error .eoi
    else if src.codeEnds count p l then .ok (src.codePlace count p l, p + l)
    else src.decodeAt count p ls

/-- The lengths DECODEPROC tries, 1 to 15. -/
def codeLengths : List Nat := List.range' 1 Config.maxCodeLen

/-- The 288 fixed literal/length code lengths (41_tree_builder.md R140). -/
def fixedLitLens : List (BitVec 4) :=
  List.replicate 144 8 ++ (List.replicate 112 9 ++ (List.replicate 24 7 ++ List.replicate 8 8))

/-- The 32 fixed distance code lengths (41_tree_builder.md R141). -/
def fixedDistLens : List (BitVec 4) := List.replicate 32 5

/-! ### The opcode map -/

/-- A row of the opcode map: match and mask (30_encoding.md R79), the field legality of a word (R78), and the command that
the row's mnemonic and the fields of the word name (R73 to R76). -/
structure OpcodeRow where
  pat : Word
  mask : Word
  legal : Word → Bool
  command : Word → Option Instr

/-- The unsigned number in bits hi down to lo of a word (00_scope.md R11). -/
def bitsOf (w : Word) (hi lo : Nat) : Nat := w.toNat / 2 ^ lo % 2 ^ (hi + 1 - lo)

/-- `CAP(TSEL)` of a TSEL number (30_encoding.md R77). -/
def capOf : Nat → Nat
  | 0 => 288
  | 1 => 32
  | 2 => 19
  | 3 => 288
  | 4 => 32
  | _ => 0

/-- The tables in the order of TSEL 0 to 4 (30_encoding.md R77). -/
def tablesBySel : List Tbl := [.lt, .dt, .clt, .flt, .fdt]

/-- The registers in the order of RSEL 0 to 8 (44_observation.md R214). -/
def registersBySel : List Reg := [.si, .bc, .tag, .err, .errCause, .hlit, .hdist, .hclen, .srcLen]

/-- The opcode map as the spec prints it, with the fields where the formats put them: 30_encoding.md R73 to R79. -/
def opcodeRows : List OpcodeRow :=
  [ ⟨0x10000000, 0xFFFFFFFF, fun _ => true, fun _ => some .getbit⟩,
    ⟨0x20000000, 0xFFE00000, fun w => decide (bitsOf w 20 16 ≤ 16),
      fun w => some (.readbits (BitVec.ofNat 5 (bitsOf w 20 16)) (BitVec.ofNat 16 (bitsOf w 15 0)))⟩,
    ⟨0x30000000, 0xFFFFFFFF, fun _ => true, fun _ => some .align⟩,
    ⟨0x40000000, 0xF8FC0000, fun w => decide (bitsOf w 26 24 ≤ 2 ∧ bitsOf w 8 0 ≤ capOf (bitsOf w 26 24) ∧
      bitsOf w 17 9 + bitsOf w 8 0 ≤ 320),
      fun w => tablesBySel[bitsOf w 26 24]?.map fun tbl =>
        .build tbl (BitVec.ofNat 9 (bitsOf w 17 9)) (BitVec.ofNat 9 (bitsOf w 8 0))⟩,
    ⟨0x50000000, 0xF8FFFFFF, fun w => decide (bitsOf w 26 24 ≤ 4),
      fun w => tablesBySel[bitsOf w 26 24]?.map .decode⟩,
    ⟨0x60000000, 0xFFFFFFFF, fun _ => true, fun _ => some .trees⟩,
    ⟨0x70000000, 0xFE00FFF0, fun w => decide (bitsOf w 24 16 ≤ 319),
      fun w => some (.wrlens (BitVec.ofNat 9 (bitsOf w 24 16)) (BitVec.ofNat 4 (bitsOf w 3 0)))⟩,
    ⟨0x80000000, 0xFE00FFFF, fun w => decide (bitsOf w 24 16 ≤ 319),
      fun w => some (.rdlens (BitVec.ofNat 9 (bitsOf w 24 16)))⟩,
    ⟨0x90000000, 0xF87FFE00, fun w => decide (bitsOf w 26 24 ≤ 4 ∧
      if bitsOf w 23 23 = 0 then bitsOf w 8 0 ≤ 15 else bitsOf w 8 0 < capOf (bitsOf w 26 24)),
      fun w => tablesBySel[bitsOf w 26 24]?.map fun tbl =>
        .rdtab tbl (if bitsOf w 23 23 = 0 then .count else .sym) (BitVec.ofNat 9 (bitsOf w 8 0))⟩,
    ⟨0xA0000000, 0xFFFFFFF0, fun w => decide (bitsOf w 3 0 ≤ 8),
      fun w => registersBySel[bitsOf w 3 0]?.map .rdreg⟩ ]

/-- A legal word by the opcode map (30_encoding.md R78, R79). -/
def legalWord (w : Word) : Prop := ∃ row ∈ opcodeRows, w &&& row.mask = row.pat ∧ row.legal w = true

/-! ### The tree descriptor (43_tree_descriptor.md) -/

/-- A parsed descriptor: the three header fields, the code lengths in sequence, and the position after the last bit. -/
structure Parsed where
  hlit : Nat
  hdist : Nat
  hclen : Nat
  clLens : List (BitVec 4)
  lens : List (BitVec 4)
  pos : Nat
  deriving DecidableEq, Repr

/-- The header fields as they stand in the descriptor registers (10_state.md R27). -/
def Parsed.desc (d : Parsed) : Descriptor :=
  { hlit := BitVec.ofNat 9 d.hlit, hdist := BitVec.ofNat 6 d.hdist, hclen := BitVec.ofNat 5 d.hclen }

/-- The code-length-alphabet lengths in symbol order: 3-bit fields stored in CLCIDX order, the rest 0 (R183). -/
def Source.clLengthsAt (src : Source) : List Nat → List (BitVec 4) → Nat → Except DataCause (List (BitVec 4) × Nat)
  | [], ls, p => .ok (ls, p)
  | i :: order, ls, p =>
    match src.readAt p 3 with
    | .error c => .error c
    | .ok v => src.clLengthsAt order (ls.set i (BitVec.ofNat 4 v)) (p + 3)

/-- The entries that one repeat symbol adds to the sequence so far, and the position after its count (R188, R189). -/
def Source.repeatAt (src : Source) (sym : Nat) (seq : List (BitVec 4)) (p : Nat) :
    Except DataCause (List (BitVec 4) × Nat) :=
  if sym = 16 then
    match seq.getLast? with
    | none => .error .repeatNoPrev
    | some v =>
      match src.readAt p 2 with
      | .error c => .error c
      | .ok n => .ok (List.replicate (n + 3) v, p + 2)
  else if sym = 17 then
    match src.readAt p 3 with
    | .error c => .error c
    | .ok n => .ok (List.replicate (n + 3) 0, p + 3)
  else
    match src.readAt p 7 with
    | .error c => .error c
    | .ok n => .ok (List.replicate (n + 11) 0, p + 7)

/-- The sequence of `total` code lengths, decoded with the code of the lengths `cl` (R185 to R190). -/
def Source.sequenceAt (src : Source) (cl : List (BitVec 4)) (total : Nat) :
    Nat → List (BitVec 4) → Nat → Except DataCause (List (BitVec 4) × Nat)
  | 0, seq, p => .ok (seq, p)
  | passes + 1, seq, p =>
    if seq.length < total then
      match src.decodeAt (lengthCount cl) p codeLengths with
      | .error c => .error c
      | .ok (place, p1) =>
        let sym := (sortedSyms cl)[place]?.getD 0
        if sym ≤ 15 then src.sequenceAt cl total passes (seq ++ [BitVec.ofNat 4 sym]) p1
        else
          match src.repeatAt sym seq p1 with
          | .error c => .error c
          | .ok (more, p2) =>
            if seq.length + more.length > total then .error .descOverflow
            else src.sequenceAt cl total passes (seq ++ more) p2
    else .ok (seq, p)

/-- The descriptor at position p (43_tree_descriptor.md R181). -/
def Source.treesAt (src : Source) (p : Nat) : Except DataCause Parsed :=
  match src.readAt p 5 with
  | .error c => .error c
  | .ok a =>
    match src.readAt (p + 5) 5 with
    | .error c => .error c
    | .ok b =>
      match src.readAt (p + 10) 4 with
      | .error c => .error c
      | .ok d =>
        match src.clLengthsAt (Config.clcidx.take (d + 4)) (List.replicate 19 0) (p + 14) with
        | .error c => .error c
        | .ok (cl, p1) =>
          match src.sequenceAt cl (a + 257 + (b + 1)) (a + 257 + (b + 1)) [] p1 with
          | .error c => .error c
          | .ok (seq, p2) =>
            .ok { hlit := a + 257, hdist := b + 1, hclen := d + 4, clLens := cl, lens := seq, pos := p2 }

end Sys2Proof.Machine
end

