-- ==== Sys2Proof/Safety.lean ====
section
/-! DEFINITION. What holds of DBR between commands (40_bitstream_reader.md R108, 10_state.md R20 to R29, 60_exceptions.md R230), and what a safe run is: the terms the claims use. -/

namespace Sys2Proof.Machine

/-- (I1) to (I5) of 40_bitstream_reader.md R108, with P the position `8*SI - BC`. -/
def Reader.inv (src : Source) (r : Reader) : Prop :=
  r.bc.toNat ≤ 31 ∧ r.bc.toNat ≤ 8 * r.si.toNat ∧ r.si.toNat ≤ src.len.toNat ∧
    r.tag.toNat < 2 ^ r.bc.toNat ∧ ∀ j < r.bc.toNat, r.tag.getLsbD j = src.bit (r.pos + j)

/-- The look-ahead that REFILL and then taking n bits leave, 40_bitstream_reader.md R101, R102 and R108 (I5), (I6): before the
n bits were taken the buffer held at least 24 bits, or the source was read to its end, and never more than 31.
With `Reader.inv` and P this fixes SI, TAG and BC. -/
def Reader.tookAfterRefill (src : Source) (n : Nat) (r : Reader) : Prop :=
  (24 ≤ r.bc.toNat + n ∨ r.si = src.len) ∧ r.bc.toNat + n ≤ 31

/-- What a build leaves: `count[0] = 0`, no more used symbols than the capacity (10_state.md R28), and every used cell a symbol below the capacity (42_symbol_decoder.md R163). -/
def Table.ok {cap : Nat} (t : Table cap) : Prop :=
  t.countAt 0 = 0 ∧ t.used ≤ cap ∧ ∀ i < t.used, (t.symAt i).toNat < cap

/-- The legal values of the descriptor registers: all 0 before the first TREES, then their ranges (10_state.md R27). -/
def Descriptor.legal (d : Descriptor) : Prop :=
  (d.hlit = 0 ∧ d.hdist = 0 ∧ d.hclen = 0) ∨
    (257 ≤ d.hlit.toNat ∧ d.hlit.toNat ≤ 288 ∧ 1 ≤ d.hdist.toNat ∧ d.hdist.toNat ≤ 32 ∧
      4 ≤ d.hclen.toNat ∧ d.hclen.toNat ≤ 19)

/-- The working state is in order: what holds of SI, TAG, BC, the descriptor registers and the built tables. -/
def State.working (s : State) : Prop :=
  s.reader.inv s.src ∧ s.desc.legal ∧ (s.lt.valid = true → s.lt.ok) ∧ (s.dt.valid = true → s.dt.ok) ∧
    (s.clt.valid = true → s.clt.ok)

/-- ERR_CAUSE is NONE while ERR = 0, and one of the six causes while ERR = 1 (60_exceptions.md R230). -/
def State.causeLegal (s : State) : Prop :=
  if s.err then s.errCause.toNat ∈ [1, 2, 3, 4, 8, 9] else s.errCause = 0

/-- The invariant of the machine. After a DataError the working state is unspecified (60_exceptions.md R236), so nothing is said of it. -/
def State.inv (s : State) : Prop :=
  s.src.wf ∧ s.causeLegal ∧ (s.scrambled = false → s.working)

/-- A run is safe at a state when the next step gives a state. -/
def State.safe (s : State) : Prop := ∃ t, step s = .next t

end Sys2Proof.Machine
end

