-- ==== Sys2Proof/Certificates/Slice0/Obligations.lean ====
section
/-! DEFINITION. The statements about DBR, each from rules of the spec. In every one of them RESULT parts of error responses and the draw counter stand under ∃: the spec gives them no value. -/

open Sys2Proof Sys2Proof.Machine

/-! ### Command words -/

/-- 30_encoding.md R84, the whole table, in both directions. -/
def Obligations.SpecExampleWordsDecodeAndEncode : Prop :=
  ∀ p ∈ [(0x20050101#32, Instr.readbits 5 257), (0x20020000#32, .readbits 2 0), (0x20100000#32, .readbits 16 0),
      (0x53000000#32, .decode .flt), (0x54000000#32, .decode .fdt), (0x50000000#32, .decode .lt),
      (0x40000120#32, .build .lt 0 288), (0x41024020#32, .build .dt 288 32), (0x42000013#32, .build .clt 0 19),
      (0x713F000F#32, .wrlens 319 15), (0x93000007#32, .rdtab .flt .count 7), (0x9080011F#32, .rdtab .lt .sym 287),
      (0xA0000004#32, .rdreg .errCause)],
    decodeWord p.1 = .ok p.2 ∧ encode p.2 = p.1

/-- 30_encoding.md R83, each pseudo-instruction's expansion, as the assembler reads it. -/
def Obligations.PseudoInstructionsExpand : Prop :=
  assembleWord "READBYTE" = assembleWord "READBITS 8, 0" ∧ assembleWord "READU16" = assembleWord "READBITS 16, 0" ∧
    assembleWord "BFINAL" = assembleWord "GETBIT" ∧ assembleWord "BTYPE" = assembleWord "READBITS 2, 0" ∧
    assembleWord "READBYTE" = some 0x20080000 ∧ assembleWord "READU16" = some 0x20100000 ∧
    assembleWord "BFINAL" = some 0x10000000 ∧ assembleWord "BTYPE" = some 0x20020000

/-- Decoding the word of a well-formed command gives the command back, every operand at every value (30_encoding.md R73 to R76). -/
def Obligations.DecodeOfEncode : Prop :=
  ∀ i : Instr, i.wellFormed = true → decodeWord (encode i) = .ok i

/-- A word that decodes is the word of the command it decodes to, and that command is well formed. -/
def Obligations.EncodeOfDecode : Prop :=
  ∀ (w : Word) (i : Instr), decodeWord w = .ok i → i.wellFormed = true ∧ encode i = w

/-- 30_encoding.md R79: the decoder accepts exactly the words that pass a row's match and mask and then its field legality,
and gives the command that row's mnemonic and the word's fields name, with TSEL numbered by R77 and RSEL by 44_observation.md R214. -/
def Obligations.DecoderAcceptsTheOpcodeMap : Prop :=
  ∀ w : Word, ((∃ i, decodeWord w = .ok i) ↔ legalWord w) ∧
    ∀ i, decodeWord w = .ok i ↔
      ∃ row ∈ opcodeRows, w &&& row.mask = row.pat ∧ row.legal w = true ∧ row.command w = some i

/-- 60_exceptions.md R232 with R80: an illegal word with ERR = 0 sets ERR and ERR_CAUSE = 8 and answers CMD_ERROR; nothing else changes. -/
def Obligations.IllegalWordsAreRefused : Prop :=
  ∀ (s : State) (w : Word) (rest : List HostMove), s.port = .command w :: rest → ¬ legalWord w → s.err = false →
    ∃ v k, step s = .next { s with
      port := rest, err := true, errCause := 8, response := some { status := .cmdError, result := v }, draws := k }

/-- The same for a command whose fields break its legality (30_encoding.md R78, 60_exceptions.md R232). -/
def Obligations.IllFormedCommandsAreRefused : Prop :=
  ∀ (s : State) (i : Instr), i.wellFormed = false → s.err = false →
    ∃ v k, exec i s = .next { s with
      err := true, errCause := 8, response := some { status := .cmdError, result := v }, draws := k }

/-! ### A step -/

/-- A command word at the port that decodes is run as the command it decodes to, on the state without that word.
That the host's moves stand in a list of the state is the model's form of the command port (assumption 1, DEDUCED). -/
def Obligations.StepRunsTheDecodedCommand : Prop :=
  ∀ (s : State) (w : Word) (rest : List HostMove) (i : Instr),
    s.port = .command w :: rest → decodeWord w = .ok i → step s = exec i { s with port := rest }

/-- With no move from the host a step leaves the state as it is. This is the MODEL'S CHOICE (assumption 15, DEDUCED):
60_exceptions.md and 70_reset_and_hazards.md say only that DBR waits for its next command. -/
def Obligations.StepWaitsForTheHost : Prop :=
  ∀ s : State, s.port = [] → step s = .next s

/-- What a reset on a launched source leaves (10_state.md R35, 70_reset_and_hazards.md R260): every value the spec gives.
The table cells are left out: the spec gives them no value (assumption 7). -/
def Obligations.ResetStartsADecodeCall : Prop :=
  ∀ (s : State) (bytes : List Byte) (rest : List HostMove),
    s.port = .reset bytes :: rest → bytes.length < 2 ^ 32 →
    ∃ t, step s = .next t ∧ t.reader.si = 0 ∧ t.reader.tag = 0 ∧ t.reader.bc = 0 ∧ t.err = false ∧ t.errCause = 0 ∧
      t.result = 0 ∧ t.desc.hlit = 0 ∧ t.desc.hdist = 0 ∧ t.desc.hclen = 0 ∧ t.lt.valid = false ∧
      t.dt.valid = false ∧ t.clt.valid = false ∧ (t.table .flt).valid = true ∧ (t.table .fdt).valid = true ∧
      (∀ i, Lens.cell t.lens i = none) ∧ t.src.len.toNat = bytes.length ∧
      (∀ i (h : i < bytes.length), t.src.read i = bytes[i]) ∧ t.port = rest

/-- A source that SRC_LEN cannot hold is refused (92_eei_decisions.md D23; assumption 9). -/
def Obligations.LongSourcesAreRefused : Prop :=
  ∀ (s : State) (bytes : List Byte) (rest : List HostMove),
    s.port = .reset bytes :: rest → 2 ^ 32 ≤ bytes.length → step s = .refused .sourceTooLong

/-! ### The bitstream reader -/

/-- GETBIT returns the next stream bit, moves P by one, leaves the look-ahead that REFILL and one bit taken leave, and writes nothing but SI, TAG, BC, RESULT and the response (40_bitstream_reader.md R101, R103, R108, R109). -/
def Obligations.GetbitReturnsTheNextStreamBit : Prop :=
  ∀ s : State, s.err = false → s.reader.inv s.src → s.reader.pos < s.src.size →
    ∃ r v, exec .getbit s = .next { s with reader := r, result := v, response := some { status := .ok, result := v } } ∧
      v.toNat = (s.src.bit s.reader.pos).toNat ∧ r.inv s.src ∧ r.pos = s.reader.pos + 1 ∧
      r.tookAfterRefill s.src 1

/-- GETBIT is exactly READBITS 1, 0, in every state (40_bitstream_reader.md R103). -/
def Obligations.GetbitIsReadbitsOne : Prop :=
  ∀ s : State, exec .getbit s = exec (.readbits 1 0) s

/-- READBITS n, base with 1 ≤ n ≤ 16 returns the little-endian field plus base, moves P by n, leaves the look-ahead that REFILL and n bits taken leave, and writes nothing but SI, TAG, BC, RESULT and the response (40_bitstream_reader.md R101, R104, R108, R109). -/
def Obligations.ReadbitsReturnsTheField : Prop :=
  ∀ (s : State) (n : BitVec 5) (base : BitVec 16), s.err = false → s.reader.inv s.src →
    1 ≤ n.toNat → n.toNat ≤ 16 → s.reader.pos + n.toNat ≤ s.src.size →
    ∃ r v, exec (.readbits n base) s =
        .next { s with reader := r, result := v, response := some { status := .ok, result := v } } ∧
      v.toNat = s.src.fieldAt s.reader.pos n.toNat + base.toNat ∧ r.inv s.src ∧ r.pos = s.reader.pos + n.toNat ∧
      r.tookAfterRefill s.src n.toNat

/-- READBITS 0, base returns base in every state with ERR = 0, and does not refill (40_bitstream_reader.md R104, R105). -/
def Obligations.ReadbitsZeroReturnsBase : Prop :=
  ∀ (s : State) (base : BitVec 16), s.err = false →
    exec (.readbits 0 base) s = .next { s with
      result := base.setWidth 32, response := some { status := .ok, result := base.setWidth 32 } }

/-- A read of n ≥ 1 bits raises DataError(EOI) exactly when P + n > 8*SRC_LEN (40_bitstream_reader.md R104, R109). -/
def Obligations.ReadsFailExactlyAtTheEnd : Prop :=
  ∀ (s : State) (n : BitVec 5) (base : BitVec 16), s.err = false → s.reader.inv s.src →
    1 ≤ n.toNat → n.toNat ≤ 16 →
    ((∃ t v, exec (.readbits n base) s = .next t ∧ t.err = true ∧ t.errCause = 1 ∧
        t.response = some { status := .dataError, result := v }) ↔ s.src.size < s.reader.pos + n.toNat) ∧
      ((∃ t, exec (.readbits n base) s = .next t ∧ t.err = true) ↔ s.src.size < s.reader.pos + n.toNat)

/-- 20_memory.md R57: a field may be read in two parts. -/
def Obligations.SplitReadsCompose : Prop :=
  (∀ (s : State) (a b : BitVec 5), s.err = false → s.reader.inv s.src → 1 ≤ a.toNat → 1 ≤ b.toNat →
    a.toNat + b.toNat ≤ 16 → s.reader.pos + (a.toNat + b.toNat) ≤ s.src.size →
    ∃ t t1 t2, exec (.readbits (a + b) 0) s = .next t ∧ exec (.readbits a 0) s = .next t1 ∧
      exec (.readbits b 0) t1 = .next t2 ∧ t.err = false ∧ t2.err = false ∧
      t.result.toNat = t1.result.toNat + t2.result.toNat * 2 ^ a.toNat ∧ t.reader.pos = t2.reader.pos) ∧
    ∀ s : State, exec .getbit s = exec (.readbits 1 0) s

/-- ALIGN gives back the whole buffered bytes, empties the buffer and returns 0, in every state with ERR = 0 (40_bitstream_reader.md R106). -/
def Obligations.AlignEmptiesTheBuffer : Prop :=
  ∀ s : State, s.err = false →
    ∃ r, exec .align s = .next { s with reader := r, result := 0, response := some { status := .ok, result := 0 } } ∧
      r.si = s.reader.si - BitVec.ofNat 32 (s.reader.bc.toNat / 8) ∧ r.bc = 0 ∧ r.tag = 0

/-- 40_bitstream_reader.md R107: ALIGN moves P to the next multiple of 8, with an empty buffer, and drops the last BC mod 8 bits, which are none exactly when P is a multiple of 8. -/
def Obligations.AlignMovesToTheNextByte : Prop :=
  ∀ s t : State, s.err = false → s.reader.inv s.src → exec .align s = .next t →
    t.reader.inv s.src ∧ t.reader.pos = 8 * ((s.reader.pos + 7) / 8) ∧ t.reader.bc = 0 ∧ t.reader.tag = 0 ∧
      t.reader.pos = s.reader.pos + s.reader.bc.toNat % 8 ∧
      (s.reader.bc.toNat % 8 ≠ 0 ↔ s.reader.pos % 8 ≠ 0) ∧
      (s.reader.pos % 8 ≠ 0 → t.reader.pos = 8 * (s.reader.pos / 8) + 8)

/-- The look-ahead is never seen by a command: two states that differ only in it answer alike, but for RDREG of SI, TAG and BC (40_bitstream_reader.md R109). -/
def Obligations.ResultsDependOnThePositionOnly : Prop :=
  ∀ (s t : State) (r : Reader) (i : Instr), i ≠ .rdreg .si → i ≠ .rdreg .tag → i ≠ .rdreg .bc →
    (s.lt.valid = true → s.lt.ok) → (s.dt.valid = true → s.dt.ok) → (s.clt.valid = true → s.clt.ok) →
    s.reader.inv s.src → r.inv s.src → r.pos = s.reader.pos → exec i s = .next t →
    ∃ r', exec i { s with reader := r } = .next { t with reader := r' } ∧
      (t.scrambled = false → r'.pos = t.reader.pos ∧ r'.inv s.src)

/-! ### The table builder -/

/-- WRLENS writes its one cell and nothing else of the state but RESULT and the response (41_tree_builder.md R130). -/
def Obligations.WrlensWritesOneCell : Prop :=
  ∀ (s : State) (idx : BitVec 9) (val : BitVec 4), s.err = false → idx.toNat ≤ 319 →
    ∃ l, exec (.wrlens idx val) s =
        .next { s with lens := l, result := 0, response := some { status := .ok, result := 0 } } ∧
      Lens.cell l idx.toNat = some val ∧ ∀ j, j ≠ idx.toNat → Lens.cell l j = Lens.cell s.lens j

/-- BUILD of a legal, written range completes: it writes the named table, whose valid bit is set, RESULT = USED and the response, and nothing else (41_tree_builder.md R131).
Its counts are the numbers of symbols of each length, and the cells from USED on keep what they held (R136). -/
def Obligations.BuildWritesItsTable : Prop :=
  ∀ (s : State) (tbl : Tbl) (off num : BitVec 9) (ls : List (BitVec 4)), s.err = false →
    tbl.writable = true → num.toNat ≤ tbl.cap → off.toNat + num.toNat ≤ 320 →
    Lens.cells s.lens off.toNat num.toNat = some ls →
    ∃ (T : Table tbl.cap) (v : Word), exec (.build tbl off num) s =
        .next { s.setTable tbl T with result := v, response := some { status := .ok, result := v } } ∧
      v.toNat = T.used ∧ T.valid = true ∧ (∀ l, l < 16 → T.countAt l = lengthCount ls l) ∧
      ∀ i, T.used ≤ i → T.sym[i]? = (s.table tbl).sym[i]?

/-- 41_tree_builder.md R133: after a build the used cells list every symbol of non-zero length exactly once, sorted by length and then by symbol, and each length's group stands where the counts put it. -/
def Obligations.BuildSortsTheSymbols : Prop :=
  ∀ (s t : State) (tbl : Tbl) (off num : BitVec 9) (ls : List (BitVec 4)), s.err = false →
    tbl.writable = true → num.toNat ≤ tbl.cap → off.toNat + num.toNat ≤ 320 →
    Lens.cells s.lens off.toNat num.toNat = some ls → exec (.build tbl off num) s = .next t →
    let T := t.table tbl
    let len : Nat → Nat := fun i => (ls[i]?.getD 0).toNat
    (∀ i, i < num.toNat → len i ≠ 0 → ∃ k, k < T.used ∧ (T.symAt k).toNat = i ∧
        ∀ k', k' < T.used → (T.symAt k').toNat = i → k' = k) ∧
      (∀ k, k < T.used → (T.symAt k).toNat < num.toNat ∧ len (T.symAt k).toNat ≠ 0) ∧
      (∀ j k, j < k → k < T.used → len (T.symAt j).toNat < len (T.symAt k).toNat ∨
        (len (T.symAt j).toNat = len (T.symAt k).toNat ∧ (T.symAt j).toNat < (T.symAt k).toNat)) ∧
      (∀ k l, k < T.used → (len (T.symAt k).toNat = l ↔
        sumBelow T.countAt l ≤ k ∧ k < sumBelow T.countAt (l + 1))) ∧
      T.used ≤ num.toNat ∧ num.toNat ≤ tbl.cap

/-- A read of a LENS cell that no command has written is a fault (10_state.md R32, 93_implementation_defined.md U6). -/
def Obligations.UnwrittenLensCellsFault : Prop :=
  (∀ (s : State) (tbl : Tbl) (off num : BitVec 9) (i : Nat), s.err = false →
    tbl.writable = true → num.toNat ≤ tbl.cap → off.toNat + num.toNat ≤ 320 →
    i < num.toNat → Lens.cell s.lens (off.toNat + i) = none → exec (.build tbl off num) s = .fault .unwrittenLens) ∧
  ∀ (s : State) (idx : BitVec 9), idx.toNat ≤ 319 → Lens.cell s.lens idx.toNat = none →
    exec (.rdlens idx) s = .fault .unwrittenLens

/-- 41_tree_builder.md R140: FLT is what the build makes of the 288 fixed lengths, with its contents and its codes. -/
def Obligations.FltIsTheFixedTable : Prop :=
  (∀ t : Table Config.ltCap, t.build fixedLitLens = Table.flt) ∧
    Table.flt.count.toList.map BitVec.toNat = [0, 0, 0, 0, 0, 0, 0, 24, 152, 112, 0, 0, 0, 0, 0, 0] ∧
    Table.flt.used = 288 ∧
    (∀ i, i < 24 → (Table.flt.symAt i).toNat = 256 + i) ∧
    (∀ i, i < 144 → (Table.flt.symAt (24 + i)).toNat = i) ∧
    (∀ i, i < 8 → (Table.flt.symAt (168 + i)).toNat = 280 + i) ∧
    (∀ i, i < 112 → (Table.flt.symAt (176 + i)).toNat = 144 + i) ∧
    (∀ i, firstCode Table.flt.countAt 7 + (0 + i - sumBelow Table.flt.countAt 7) = 0b0000000 + i) ∧
    (∀ i, firstCode Table.flt.countAt 8 + (24 + i - sumBelow Table.flt.countAt 8) = 0b00110000 + i) ∧
    (∀ i, firstCode Table.flt.countAt 8 + (168 + i - sumBelow Table.flt.countAt 8) = 0b11000000 + i) ∧
    (∀ i, firstCode Table.flt.countAt 9 + (176 + i - sumBelow Table.flt.countAt 9) = 0b110010000 + i)

/-- FDT is what the build makes of 32 lengths of 5: symbol d has the 5-bit code d (41_tree_builder.md R141). -/
def Obligations.FdtIsTheFixedTable : Prop :=
  (∀ t : Table Config.dtCap, t.build fixedDistLens = Table.fdt) ∧ Table.fdt.countAt 5 = 32 ∧
    (∀ l, l ≠ 5 → Table.fdt.countAt l = 0) ∧
    (∀ i, i < 32 → (Table.fdt.symAt i).toNat = i) ∧
    ∀ d, firstCode Table.fdt.countAt 5 + (d - sumBelow Table.fdt.countAt 5) = d

/-! ### The symbol decoder -/

/-- 42_symbol_decoder.md R162: when the next L bits are the code of a symbol and no shorter prefix is a code, DECODE consumes those L bits and returns the symbol; it leaves the look-ahead that REFILL and L bits taken leave (40_bitstream_reader.md R101, R108), and nothing but SI, TAG, BC, RESULT and the response changes. -/
def Obligations.DecodeReadsTheCanonicalCode : Prop :=
  ∀ (s : State) (tbl : Tbl) (l j : Nat), s.err = false → s.reader.inv s.src → (s.table tbl).valid = true →
    (s.table tbl).ok → 1 ≤ l → l ≤ 15 → j < (s.table tbl).countAt l →
    s.src.codeAt s.reader.pos l = firstCode (s.table tbl).countAt l + j →
    (∀ m, 1 ≤ m → m < l → ¬ s.src.codeEnds (s.table tbl).countAt s.reader.pos m) →
    s.reader.pos + l ≤ s.src.size →
    ∃ r v, exec (.decode tbl) s = .next { s with reader := r, result := v, response := some { status := .ok, result := v } } ∧
      v.toNat = ((s.table tbl).symAt (sumBelow (s.table tbl).countAt l + j)).toNat ∧
      r.inv s.src ∧ r.pos = s.reader.pos + l ∧ r.tookAfterRefill s.src l

/-- 42_symbol_decoder.md R164: with no code among the bits, DECODE raises CODE_TOO_LONG when 15 bits are there and EOI when fewer are; a code within the bits that are there succeeds however few they are. -/
def Obligations.DecodeFailsAsTheBitsRunOut : Prop :=
  ∀ (s : State) (tbl : Tbl), s.err = false → s.reader.inv s.src → (s.table tbl).valid = true → (s.table tbl).ok →
    ((∀ m, 1 ≤ m → m ≤ 15 → ¬ s.src.codeEnds (s.table tbl).countAt s.reader.pos m) → s.reader.pos + 15 ≤ s.src.size →
      ∃ t v, exec (.decode tbl) s = .next t ∧ t.err = true ∧ t.errCause = 2 ∧
        t.response = some { status := .dataError, result := v }) ∧
    (∀ k, k < 15 → s.reader.pos + k = s.src.size →
      (∀ m, 1 ≤ m → m ≤ k → ¬ s.src.codeEnds (s.table tbl).countAt s.reader.pos m) →
      ∃ t v, exec (.decode tbl) s = .next t ∧ t.err = true ∧ t.errCause = 1 ∧
        t.response = some { status := .dataError, result := v }) ∧
    (∀ m, 1 ≤ m → m ≤ 15 → s.reader.pos + m ≤ s.src.size → s.src.codeEnds (s.table tbl).countAt s.reader.pos m →
      ∃ t v, exec (.decode tbl) s = .next t ∧ t.err = false ∧ t.response = some { status := .ok, result := v })

/-- A DECODE that succeeds reads a used cell, so the symbol is below the table's capacity (42_symbol_decoder.md R163). -/
def Obligations.DecodedSymbolsAreInRange : Prop :=
  ∀ (s t : State) (tbl : Tbl), s.err = false → s.reader.inv s.src → (s.table tbl).ok →
    exec (.decode tbl) s = .next t → t.err = false →
    t.result.toNat < tbl.cap ∧ ∃ i, i < (s.table tbl).used ∧ t.result.toNat = ((s.table tbl).symAt i).toNat

/-- DECODE and RDTAB of a table that nothing has built raise TABLE_INVALID; only ERR, ERR_CAUSE and the response change (42_symbol_decoder.md R160, 44_observation.md R212, 60_exceptions.md R236). -/
def Obligations.UnbuiltTablesAreRefused : Prop :=
  ∀ (s : State) (tbl : Tbl) (i : Instr), s.err = false → (s.table tbl).valid = false → i.wellFormed = true →
    (i = .decode tbl ∨ ∃ part idx, i = .rdtab tbl part idx) →
    ∃ v k, exec i s = .next { s with
      err := true, errCause := 9, response := some { status := .cmdError, result := v }, draws := k }

/-! ### The tree descriptor parser -/

/-- TREES at a position where the stream holds a descriptor leaves its header fields, its code lengths in LENS, and the three tables built of them; LENS from HLIT + HDIST on and all other state stay (43_tree_descriptor.md R181 to R197). -/
def Obligations.TreesParsesTheDescriptor : Prop :=
  ∀ (s : State) (d : Parsed), s.err = false → s.reader.inv s.src → s.src.treesAt s.reader.pos = .ok d →
    ∃ r l v, exec .trees s = .next { s with
        reader := r, desc := d.desc, lens := l, clt := s.clt.build d.clLens, lt := s.lt.build (d.lens.take d.hlit),
        dt := s.dt.build (d.lens.drop d.hlit), result := v, response := some { status := .ok, result := v } } ∧
      v.toNat = d.hlit + 2 ^ 9 * d.hdist + 2 ^ 15 * d.hclen ∧ r.inv s.src ∧ r.pos = d.pos ∧
      Lens.cells l 0 (d.hlit + d.hdist) = some d.lens ∧
      ∀ i, d.hlit + d.hdist ≤ i → Lens.cell l i = Lens.cell s.lens i

/-- TREES at a position where the stream holds no descriptor raises the first failure, in stream order: EOI, CODE_TOO_LONG, REPEAT_NO_PREV or DESC_OVERFLOW (43_tree_descriptor.md R181, R188, R190, R195, R198). -/
def Obligations.TreesReportsTheFirstFailure : Prop :=
  ∀ (s : State) (c : DataCause), s.err = false → s.reader.inv s.src → s.src.treesAt s.reader.pos = .error c →
    ∃ t v, exec .trees s = .next t ∧ t.err = true ∧ t.errCause = c.code ∧
      t.response = some { status := .dataError, result := v } ∧ t.src = s.src

/-- 43_tree_descriptor.md R192: the packing of RESULT after a TREES that succeeds. -/
def Obligations.TreesPacksItsResult : Prop :=
  ∀ s t : State, s.err = false → s.reader.inv s.src → exec .trees s = .next t → t.err = false →
    t.result.extractLsb' 0 9 = t.desc.hlit ∧ t.result.extractLsb' 9 6 = t.desc.hdist ∧
      t.result.extractLsb' 15 5 = t.desc.hclen ∧ t.result.extractLsb' 20 12 = 0

/-- After a TREES that succeeds the header fields are the read formulas' (43_tree_descriptor.md R182, R193: every value of HLIT and HDIST is accepted), the three tables are valid and in order, and P has moved past the descriptor (R197). -/
def Obligations.TreesLeavesLegalFieldsAndTables : Prop :=
  ∀ s t : State, s.err = false → s.reader.inv s.src → exec .trees s = .next t → t.err = false →
    t.desc.hlit.toNat = s.src.fieldAt s.reader.pos 5 + 257 ∧
      t.desc.hdist.toNat = s.src.fieldAt (s.reader.pos + 5) 5 + 1 ∧
      t.desc.hclen.toNat = s.src.fieldAt (s.reader.pos + 10) 4 + 4 ∧
      t.lt.valid = true ∧ t.dt.valid = true ∧ t.clt.valid = true ∧ t.lt.ok ∧ t.dt.ok ∧ t.clt.ok ∧
      s.reader.pos + 14 < t.reader.pos ∧ t.reader.pos ≤ s.src.size

/-! ### Observation -/

/-- RDLENS returns a written cell, whatever ERR is, and writes nothing but RESULT and the response (44_observation.md R210, 60_exceptions.md R237). -/
def Obligations.RdlensReturnsTheCell : Prop :=
  ∀ (s : State) (idx : BitVec 9) (val : BitVec 4), idx.toNat ≤ 319 → Lens.cell s.lens idx.toNat = some val →
    exec (.rdlens idx) s = .next { s with
      result := val.setWidth 32, response := some { status := .ok, result := val.setWidth 32 } }

/-- RDTAB of a valid table returns the cell, whatever ERR is, and writes nothing but RESULT and the response; for a stale cell the value is open (44_observation.md R212, 93_implementation_defined.md U5). -/
def Obligations.RdtabReturnsTheCell : Prop :=
  ∀ (s : State) (tbl : Tbl) (part : Part) (idx : BitVec 9), (s.table tbl).valid = true →
    idx.toNat < part.size tbl →
    ∃ v k, exec (.rdtab tbl part idx) s = .next { s with
        result := v, response := some { status := .ok, result := v }, draws := k } ∧
      (part = .count → v.toNat = (s.table tbl).countAt idx.toNat ∧ k = s.draws) ∧
      (part = .sym → idx.toNat < (s.table tbl).used →
        v.toNat = ((s.table tbl).symAt idx.toNat).toNat ∧ k = s.draws)

/-- RDREG returns the register it names, whatever ERR is, and writes nothing but RESULT and the response; and each selector RSEL
from 0 to 8, in the word of R214, names the register of its row there (44_observation.md R214). -/
def Obligations.RdregReturnsTheRegister : Prop :=
  (∀ (s : State) (reg : Reg), ∃ v,
    exec (.rdreg reg) s = .next { s with result := v, response := some { status := .ok, result := v } } ∧
      v.toNat = match reg with
        | .si => s.reader.si.toNat
        | .bc => s.reader.bc.toNat
        | .tag => s.reader.tag.toNat
        | .err => if s.err then 1 else 0
        | .errCause => s.errCause.toNat
        | .hlit => s.desc.hlit.toNat
        | .hdist => s.desc.hdist.toNat
        | .hclen => s.desc.hclen.toNat
        | .srcLen => s.src.len.toNat) ∧
  ∀ (s : State) (rsel : BitVec 4), rsel.toNat ≤ 8 → ∃ reg v,
    decodeWord (0xA0000000 ||| rsel.setWidth 32) = .ok (.rdreg reg) ∧
      exec (.rdreg reg) s = .next { s with result := v, response := some { status := .ok, result := v } } ∧
      v.toNat = match rsel.toNat with
        | 0 => s.reader.si.toNat
        | 1 => s.reader.bc.toNat
        | 2 => s.reader.tag.toNat
        | 3 => if s.err then 1 else 0
        | 4 => s.errCause.toNat
        | 5 => s.desc.hlit.toNat
        | 6 => s.desc.hdist.toNat
        | 7 => s.desc.hclen.toNat
        | _ => s.src.len.toNat

/-- An observation that raises no error changes nothing that a later command sees: the command then answers as it would have without it, and leaves the same state but for RESULT, unless it raises a DataError, which leaves its own drawn state (44_observation.md R215). -/
def Obligations.ObservationDisturbsNoCommand : Prop :=
  ∀ (s t u : State) (i j : Instr), i.isObservation = true → j.isObservation = false →
    exec i s = .next t → t.err = s.err → exec j s = .next u →
    ∃ u', exec j t = .next u' ∧ u'.err = u.err ∧ u'.errCause = u.errCause ∧
      u'.response.map (·.status) = u.response.map (·.status) ∧ (u.err = false → u' = { u with draws := t.draws }) ∧
      (u.response.map (·.status) ≠ some .dataError →
        u' = { u with result := u'.result, response := u'.response, draws := u'.draws })

/-! ### Errors -/

/-- 60_exceptions.md R237: while ERR = 1 every command that is no observation and every illegal word answers ABORTED and changes no state; an observation runs as with ERR = 0 where that would raise no error, and answers ABORTED where it would (RDREG ERR, which reads ERR itself, returns 1). -/
def Obligations.StickyAbort : Prop :=
  (∀ (s : State) (i : Instr), s.err = true → i.isObservation = false →
    ∃ v k, exec i s = .next { s with response := some { status := .aborted, result := v }, draws := k }) ∧
  (∀ (s : State) (w : Word) (rest : List HostMove), s.err = true → s.port = .command w :: rest → ¬ legalWord w →
    ∃ v k, step s = .next { s with
      port := rest, response := some { status := .aborted, result := v }, draws := k }) ∧
  (∀ (s u : State) (i : Instr), s.err = true → i.isObservation = true → i ≠ .rdreg .err →
    exec i { s with err := false } = .next u →
    (u.err = false → exec i s = .next { u with err := true }) ∧
      (u.err = true →
        ∃ v k, exec i s = .next { s with response := some { status := .aborted, result := v }, draws := k })) ∧
  ∀ s : State, s.err = true →
    exec (.rdreg .err) s = .next { s with result := 1, response := some { status := .ok, result := 1 } }

/-- 60_exceptions.md R235: a command that ends OK or ABORTED does not write ERR or ERR_CAUSE; an error is raised only from ERR = 0, so ERR_CAUSE keeps the first error until reset. -/
def Obligations.OnlyErrorsAndResetWriteTheCause : Prop :=
  (∀ (s t : State) (i : Instr), exec i s = .next t → ∃ rsp, t.response = some rsp ∧
    (rsp.status = .ok ∨ rsp.status = .aborted → t.err = s.err ∧ t.errCause = s.errCause) ∧
    (rsp.status = .dataError → s.err = false ∧ t.err = true ∧ t.errCause.toNat ∈ [1, 2, 3, 4]) ∧
    (rsp.status = .cmdError → s.err = false ∧ t.err = true ∧ t.errCause.toNat ∈ [8, 9])) ∧
  ∀ s t : State, step s = .next t → s.err = true →
    (t.err = true ∧ t.errCause = s.errCause) ∨ ∃ bytes rest, s.port = .reset bytes :: rest ∧ t.err = false

/-- After a CmdError every piece of state but ERR and ERR_CAUSE keeps its value; after a DataError SRC and SRC_LEN do (60_exceptions.md R236). -/
def Obligations.CmdErrorsKeepTheState : Prop :=
  ∀ (s t : State) (i : Instr), exec i s = .next t → s.err = false → t.err = true →
    (t.errCause.toNat ∈ [8, 9] →
      t = { s with err := true, errCause := t.errCause, response := t.response, draws := t.draws }) ∧
    (t.errCause.toNat ∈ [1, 2, 3, 4] → t.src = s.src ∧ t.port = s.port)

/-! ### The whole machine -/

/-- DBR never writes memory, and a command leaves the host's moves alone (00_scope.md R12, 20_memory.md R52). -/
def Obligations.NoCommandWritesTheSource : Prop :=
  ∀ (s t : State) (i : Instr), exec i s = .next t →
    (∀ a, t.src.read a = s.src.read a) ∧ t.src = s.src ∧ t.port = s.port

/-- What each command leaves alone when it raises no DataError: the reader but for consuming commands and ALIGN (10_state.md R21), LENS but for WRLENS and TREES (R32), the descriptor registers but for TREES (R27), each table but for TREES and the BUILD that names it (R29). -/
def Obligations.CommandsKeepWhatTheyDoNotWrite : Prop :=
  ∀ (s t : State) (i : Instr), exec i s = .next t → (t.err = true → s.err = false → t.errCause.toNat ∈ [8, 9]) →
    (i.isConsuming = false → i ≠ .align → t.reader = s.reader) ∧
    ((∀ idx val, i ≠ .wrlens idx val) → i ≠ .trees → t.lens = s.lens) ∧
    (i ≠ .trees → t.desc = s.desc) ∧
    ((∀ off num, i ≠ .build .lt off num) → i ≠ .trees → t.lt = s.lt) ∧
    ((∀ off num, i ≠ .build .dt off num) → i ≠ .trees → t.dt = s.dt) ∧
    ((∀ off num, i ≠ .build .clt off num) → i ≠ .trees → t.clt = s.clt) ∧
    t.table .flt = s.table .flt ∧ t.table .fdt = s.table .fdt

/-- The stream position never moves back and never passes the end of the source (10_state.md R21). -/
def Obligations.PositionNeverMovesBack : Prop :=
  ∀ (s t : State) (i : Instr), s.inv → s.scrambled = false → exec i s = .next t → t.scrambled = false →
    s.reader.pos ≤ t.reader.pos ∧ t.reader.pos ≤ s.src.size

/-- The look-ahead is at most 31 bits, and at most 3 whole bytes beyond the one that holds the next bit (10_state.md R34, 40_bitstream_reader.md R108 (I5)), after every step. -/
def Obligations.LookAheadIsBounded : Prop :=
  ∀ s t : State, s.inv → step s = .next t → t.scrambled = false →
    t.reader.bc.toNat ≤ 31 ∧ t.reader.si.toNat - t.reader.pos / 8 ≤ 4 ∧ t.reader.si.toNat ≤ t.src.len.toNat

/-- Every step keeps the invariant: the source is canonical, ERR_CAUSE is legal, and, unless a DataError has left it unspecified, the working state is in order (40_bitstream_reader.md R108, 10_state.md R27 to R29). -/
def Obligations.EveryStepKeepsTheInvariant : Prop :=
  ∀ s t : State, s.inv → step s = .next t → t.inv

/-- The invariant holds after reset. -/
def Obligations.ResetHasTheInvariant : Prop := State.reset.inv

/-- From a state with the invariant a step goes on, but for a read of an unwritten LENS cell by a BUILD or RDLENS, and a source too long to launch; no other command ever stops, TREES among them (93_implementation_defined.md U6). -/
def Obligations.StepsGoOn : Prop :=
  ∀ s : State, s.inv →
    (∃ t, step s = .next t) ∨
    (step s = .fault .unwrittenLens ∧ ∃ w rest i, s.port = .command w :: rest ∧ decodeWord w = .ok i ∧
      ((∃ tbl off num, i = .build tbl off num ∧ ∃ k, k < num.toNat ∧ Lens.cell s.lens (off.toNat + k) = none) ∨
        ∃ idx, i = .rdlens idx ∧ Lens.cell s.lens idx.toNat = none)) ∨
    (step s = .refused .sourceTooLong ∧ ∃ bytes rest, s.port = .reset bytes :: rest ∧ 2 ^ 32 ≤ bytes.length)
end

