-- ==== Sys2Proof/Laws/Reader.lean ====
section
/-! SUPPORT. The bitstream reader: REFILL, TAKE, READF and ALIGN keep (I1) to (I5) of 40_bitstream_reader.md R108 and read the abstract stream of R109. -/

namespace Sys2Proof.Machine

/-! ### The stream's fields -/

theorem Source.fieldAt_lt (src : Source) (n : Nat) : ∀ p, src.fieldAt p n < 2 ^ n := by
  induction n with
  | zero => intro p; simp [Source.fieldAt]
  | succ n ih =>
    intro p
    have h1 := ih (p + 1)
    have h2 : (src.bit p).toNat ≤ 1 := Bool.toNat_le _
    simp only [Source.fieldAt, pow_succ]
    omega

/-- Bit j of a field is stream bit p + j (20_memory.md R55). -/
theorem Source.testBit_fieldAt (src : Source) (n : Nat) : ∀ p j,
    (src.fieldAt p n).testBit j = (decide (j < n) && src.bit (p + j)) := by
  induction n with
  | zero => intro p j; simp [Source.fieldAt]
  | succ n ih =>
    intro p j
    cases j with
    | zero => cases h : src.bit p <;> simp [Source.fieldAt, Nat.testBit_zero, h]
    | succ j =>
      have e : ((src.bit p).toNat + 2 * src.fieldAt (p + 1) n) / 2 = src.fieldAt (p + 1) n := by
        have : (src.bit p).toNat ≤ 1 := Bool.toNat_le _
        omega
      rw [Source.fieldAt, Nat.testBit_succ, e, ih]
      simp [show p + (j + 1) = p + 1 + j by omega]

/-! ### REFILL -/

/-- What one pass of REFILL does. -/
theorem Reader.refillStep_cases (src : Source) (r : Reader) :
    (r.bc.toNat < 24 ∧ r.si.toNat < src.len.toNat ∧
      r.refillStep src = { tag := r.tag ||| ((src.read r.si.toNat).setWidth 32 <<< r.bc.toNat),
                           si := r.si + 1, bc := r.bc + 8 }) ∨
    ((24 ≤ r.bc.toNat ∨ src.len.toNat ≤ r.si.toNat) ∧ r.refillStep src = r) := by
  unfold Reader.refillStep
  split
  · rename_i h; exact .inl ⟨h.1, h.2, rfl⟩
  · rename_i h
    refine .inr ⟨?_, rfl⟩
    simp only [Config.refillTarget, not_and_or, not_lt] at h
    exact h

/-- One pass of REFILL keeps (I1) to (I5) and the position (40_bitstream_reader.md R108). -/
theorem Reader.refillStep_inv {src : Source} {r : Reader} (h : r.inv src) :
    (r.refillStep src).inv src ∧ (r.refillStep src).pos = r.pos := by
  obtain ⟨hb, hs, e⟩ | ⟨-, e⟩ := Reader.refillStep_cases src r
  · obtain ⟨h1, h2, h3, h4, h5⟩ := h
    have hl := src.len.isLt
    have esi : (r.si + 1).toNat = r.si.toNat + 1 := by
      rw [BitVec.toNat_add]; simp; omega
    have ebc : (r.bc + 8).toNat = r.bc.toNat + 8 := by
      rw [BitVec.toNat_add]; simp; omega
    have epos : 8 * (r.si.toNat + 1) - (r.bc.toNat + 8) = r.pos := by unfold Reader.pos; omega
    have hbyte := (src.read r.si.toNat).isLt
    rw [e]
    refine ⟨⟨?_, ?_, ?_, ?_, ?_⟩, ?_⟩ <;> simp only [esi, ebc, Reader.pos]
    · omega
    · omega
    · omega
    · rw [BitVec.toNat_or]
      refine Nat.or_lt_two_pow (lt_of_lt_of_le h4 (Nat.pow_le_pow_right (by omega) (by omega))) ?_
      rw [BitVec.toNat_shiftLeft, BitVec.toNat_setWidth, Nat.shiftLeft_eq]
      refine lt_of_le_of_lt (Nat.mod_le _ _) ?_
      rw [Nat.mod_eq_of_lt (by omega), pow_add, mul_comm]
      exact Nat.mul_lt_mul_of_pos_left hbyte (by positivity)
    · intro j hj
      rw [epos, BitVec.getLsbD_or, BitVec.getLsbD_shiftLeft, BitVec.getLsbD_setWidth]
      by_cases hj' : j < r.bc.toNat
      · simp [hj', h5 j hj']
      · have hz : r.tag.getLsbD j = false := by
          show r.tag.toNat.testBit j = false
          exact Nat.testBit_lt_two_pow (lt_of_lt_of_le h4 (Nat.pow_le_pow_right (by omega) (by omega)))
        have e1 : (r.pos + j) / 8 = r.si.toNat := by unfold Reader.pos; omega
        have e2 : (r.pos + j) % 8 = j - r.bc.toNat := by unfold Reader.pos; omega
        have h6 : j < 32 := by omega
        have h7 : j - r.bc.toNat < 32 := by omega
        rw [hz]
        simp [hj', h6, h7, Source.bit, e1, e2]
    · exact epos
  · rw [e]; exact ⟨h, rfl⟩

/-- REFILL keeps (I1) to (I5) and the position (40_bitstream_reader.md R108). -/
theorem Reader.refill_inv {src : Source} {r : Reader} (h : r.inv src) :
    (r.refill src).inv src ∧ (r.refill src).pos = r.pos := by
  obtain ⟨i1, p1⟩ := Reader.refillStep_inv h
  obtain ⟨i2, p2⟩ := Reader.refillStep_inv i1
  obtain ⟨i3, p3⟩ := Reader.refillStep_inv i2
  exact ⟨i3, p3.trans (p2.trans p1)⟩

/-- What REFILL does to SI and BC: it reads k bytes, at most 3 (20_memory.md R53), and stops at 24 bits or at the end (R108 (I6)). -/
theorem Reader.refill_reads {src : Source} {r : Reader} (hb : r.bc.toNat ≤ 31) (hs : r.si.toNat ≤ src.len.toNat) :
    ∃ k ≤ 3, (r.refill src).si.toNat = r.si.toNat + k ∧ (r.refill src).bc.toNat = r.bc.toNat + 8 * k ∧
      (24 ≤ (r.refill src).bc.toNat ∨ (r.refill src).si.toNat = src.len.toNat) := by
  have hl := src.len.isLt
  have one : ∀ q : Reader, q.bc.toNat ≤ 31 → q.si.toNat ≤ src.len.toNat →
      ((q.refillStep src).si.toNat = q.si.toNat + 1 ∧ (q.refillStep src).bc.toNat = q.bc.toNat + 8 ∧
        q.bc.toNat < 24 ∧ q.si.toNat < src.len.toNat) ∨
      (q.refillStep src = q ∧ (24 ≤ q.bc.toNat ∨ q.si.toNat = src.len.toNat)) := by
    intro q hqb hqs
    obtain ⟨hb, hs, e⟩ | ⟨hc, e⟩ := Reader.refillStep_cases src q
    · refine .inl ⟨?_, ?_, hb, hs⟩ <;> rw [e, BitVec.toNat_add] <;> simp <;> omega
    · exact .inr ⟨e, hc.imp id fun h => by omega⟩
  unfold Reader.refill
  rcases one r hb hs with ⟨s1, b1, c1, d1⟩ | ⟨e1, h1⟩
  · rcases one (r.refillStep src) (by omega) (by omega) with ⟨s2, b2, c2, d2⟩ | ⟨e2, h2⟩
    · rcases one ((r.refillStep src).refillStep src) (by omega) (by omega) with ⟨s3, b3, c3, d3⟩ | ⟨e3, h3⟩
      · exact ⟨3, by omega, by omega, by omega, by omega⟩
      · rw [e3]; exact ⟨2, by omega, by omega, by omega, by omega⟩
    · rw [e2, e2]; exact ⟨1, by omega, by omega, by omega, by omega⟩
  · rw [e1, e1, e1]; exact ⟨0, by omega, by omega, by omega, h1⟩

/-- (I6) of 40_bitstream_reader.md R108: right after REFILL a request of at most 24 bits is short only at the end of the source. -/
theorem Reader.refill_enough {src : Source} {r : Reader} {n : Nat} (h : r.inv src) (hn : n ≤ 24) :
    n ≤ (r.refill src).bc.toNat ↔ r.pos + n ≤ src.size := by
  obtain ⟨⟨i1, i2, i3, -, -⟩, p⟩ := Reader.refill_inv h
  obtain ⟨k, -, -, -, h6⟩ := Reader.refill_reads (src := src) h.1 h.2.2.1
  rw [← p]
  unfold Reader.pos Source.size
  omega

/-! ### TAKE -/

theorem Reader.take_short {r : Reader} {n : Nat} (h : r.bc.toNat < n) : r.take n = .error (.data .eoi) := by
  simp [Reader.take, h]

/-- Everything TAKE does when the bits are there (40_bitstream_reader.md R102, R108). -/
theorem Reader.take_spec {src : Source} {r : Reader} {n : Nat} (h : r.inv src) (hn : n ≤ r.bc.toNat) :
    ∃ v r', r.take n = .ok (v, r') ∧ v.toNat = src.fieldAt r.pos n ∧ r'.inv src ∧ r'.pos = r.pos + n ∧
      r'.bc.toNat = r.bc.toNat - n ∧ r'.si = r.si := by
  obtain ⟨h1, h2, h3, h4, h5⟩ := h
  have ebc : (r.bc - BitVec.ofNat 6 n).toNat = r.bc.toNat - n := by
    rw [BitVec.toNat_sub_of_le] <;> simp [BitVec.le_def, Nat.mod_eq_of_lt (show n < 64 by omega)]
    omega
  have epos : 8 * r.si.toNat - (r.bc.toNat - n) = r.pos + n := by unfold Reader.pos; omega
  refine ⟨r.tag &&& ((1#32 <<< n) - 1#32), { si := r.si, tag := r.tag >>> n, bc := r.bc - BitVec.ofNat 6 n },
    by unfold Reader.take; rw [if_neg (by omega)], ?_, ⟨?_, ?_, h3, ?_, ?_⟩, ?_, ebc, rfl⟩
  · apply Nat.eq_of_testBit_eq
    intro j
    have e1 : (1#32 <<< n - 1#32).toNat = 2 ^ n - 1 := by
      have h32 : 2 ^ n < 2 ^ 32 := Nat.pow_lt_pow_right (by omega) (by omega)
      have hpos : 1 ≤ 2 ^ n := Nat.one_le_two_pow
      have e : (1#32 <<< n).toNat = 2 ^ n := by
        rw [BitVec.toNat_shiftLeft, Nat.shiftLeft_eq, Nat.mod_eq_of_lt (by simpa using h32)]
        simp
      rw [BitVec.toNat_sub_of_le, e]
      · rfl
      · rw [BitVec.le_def, e]; exact hpos
    rw [BitVec.toNat_and, e1, Nat.testBit_and, Nat.testBit_two_pow_sub_one, Source.testBit_fieldAt]
    by_cases hj : j < n
    · have := h5 j (by omega)
      rw [BitVec.getLsbD] at this
      simp [hj, this]
    · simp [hj]
  · simp only [ebc]; omega
  · simp only [ebc]; omega
  · simp only [ebc, BitVec.toNat_ushiftRight, Nat.shiftRight_eq_div_pow]
    rw [Nat.div_lt_iff_lt_mul (by positivity), ← pow_add]
    rwa [show r.bc.toNat - n + n = r.bc.toNat by omega]
  · intro j hj
    simp only [ebc] at hj
    simp only [Reader.pos, ebc, epos]
    rw [BitVec.getLsbD_ushiftRight, h5 (n + j) (by omega)]
    congr 1
    omega
  · simp only [Reader.pos, ebc, epos]

/-- TAKE reads no source byte. -/
theorem Reader.take_si {r r' : Reader} {n : Nat} {v : Word} (h : r.take n = .ok (v, r')) : r'.si = r.si := by
  unfold Reader.take at h
  split at h
  · simp at h
  · simp only [Except.ok.injEq, Prod.mk.injEq] at h
    rw [← h.2]

/-- A reader that still has REFILL's SI, n bits further on, has REFILL's look-ahead but for those n bits. -/
theorem Reader.tookAfterRefill_of_si {src : Source} {r r' : Reader} {n : Nat} (h : r.inv src) (h' : r'.inv src)
    (hs : r'.si = (r.refill src).si) (hp : r'.pos = r.pos + n) : r'.tookAfterRefill src n := by
  obtain ⟨hi, hpos⟩ := Reader.refill_inv h
  obtain ⟨k, -, -, -, h6⟩ := Reader.refill_reads (src := src) h.1 h.2.2.1
  have h1 := hi.1
  have h2 := hi.2.1
  have h3 := h'.2.1
  have hbc : r'.bc.toNat + n = (r.refill src).bc.toNat := by
    unfold Reader.pos at hp hpos
    rw [hs] at hp h3
    omega
  exact ⟨h6.imp (by omega) (fun e => by rw [hs]; exact BitVec.eq_of_toNat_eq e), by omega⟩

/-- The look-ahead that a field read leaves (40_bitstream_reader.md R101, R108). -/
theorem Reader.readf_tookAfterRefill {src : Source} {r r' : Reader} {n base v : Nat} (h : r.inv src)
    (hr : r.readf src n base = .ok (v, r')) (hi : r'.inv src) (hp : r'.pos = r.pos + n) :
    r'.tookAfterRefill src n := by
  unfold Reader.readf at hr
  split at hr
  · simp at hr
  · rename_i ht
    simp only [Except.ok.injEq, Prod.mk.injEq] at hr
    rw [← hr.2] at hi hp ⊢
    exact Reader.tookAfterRefill_of_si h hi (Reader.take_si ht) hp

/-- READF and the read of READBITS on the abstract stream (40_bitstream_reader.md R109). -/
theorem Reader.readf_ok {src : Source} {r : Reader} {n : Nat} (base : Nat) (h : r.inv src) (hn : n ≤ 24)
    (hp : r.pos + n ≤ src.size) :
    ∃ r', r.readf src n base = .ok (src.fieldAt r.pos n + base, r') ∧ r'.inv src ∧ r'.pos = r.pos + n := by
  obtain ⟨hi, hpos⟩ := Reader.refill_inv h
  obtain ⟨v, r', ht, hv, hi', hp', -, -⟩ := Reader.take_spec hi ((Reader.refill_enough h hn).mpr hp)
  exact ⟨r', by simp [Reader.readf, ht, hv, hpos], hi', by rw [hp', hpos]⟩

/-- At the end of the source the read fails with EOI (40_bitstream_reader.md R102, R109). -/
theorem Reader.readf_eoi {src : Source} {r : Reader} {n : Nat} (base : Nat) (h : r.inv src) (hn : n ≤ 24)
    (hp : src.size < r.pos + n) : r.readf src n base = .error (.data .eoi) := by
  have : ¬ n ≤ (r.refill src).bc.toNat := fun c => by have := (Reader.refill_enough h hn).mp c; omega
  simp [Reader.readf, Reader.take_short (by omega : (r.refill src).bc.toNat < n)]

/-- ALIGN on the abstract stream (40_bitstream_reader.md R107, R109). -/
theorem Reader.align_inv {src : Source} {r : Reader} (h : r.inv src) :
    r.align.inv src ∧ r.align.pos = 8 * ((r.pos + 7) / 8) := by
  obtain ⟨h1, h2, h3, -, -⟩ := h
  have esi : r.align.si.toNat = r.si.toNat - r.bc.toNat / 8 := by
    have e : ((r.bc >>> 3).setWidth 32).toNat = r.bc.toNat / 8 := by
      simp [Nat.shiftRight_eq_div_pow]
      omega
    rw [Reader.align, BitVec.toNat_sub_of_le, e]
    rw [BitVec.le_def, e]; omega
  have ebc : r.align.bc.toNat = 0 := rfl
  have etag : r.align.tag.toNat = 0 := rfl
  refine ⟨⟨by omega, by omega, by omega, by rw [etag, ebc]; simp, fun j hj => by omega⟩, ?_⟩
  unfold Reader.pos
  omega

/-- A field read never faults. -/
theorem Reader.readf_ne_fault {src : Source} {r : Reader} {n b : Nat} {f : Fault} :
    r.readf src n b ≠ .error (.fault f) := by
  unfold Reader.readf Reader.take
  split
  · rename_i h; split at h <;> simp at h; simp [← h]
  · simp

end Sys2Proof.Machine
end

