-- ==== Sys2Proof/Laws/Decoder.lean ====
section
/-! SUPPORT. The symbol decoder: DECODEPROC is the abstract decoder of 42_symbol_decoder.md R162, R164, and the place it finds is a used one (R163). -/

namespace Sys2Proof.Machine

/-- DECODEPROC's loop from length l on, against the abstract decoder: `c` of 42_symbol_decoder.md R162 is `codeAt - F`. -/
theorem Table.decodeLoop_spec {cap : Nat} (t : Table cap) (src : Source) (p : Nat) :
    ∀ (k l cur sum : Nat) (r : Reader), 1 ≤ l → l + k = 16 → r.inv src → r.pos + 1 = p + l →
      (k ≤ r.bc.toNat ∨ r.si.toNat = src.len.toNat) →
      2 * cur + firstCode t.countAt l = 2 * src.codeAt p (l - 1) → sum = sumBelow t.countAt l →
      match src.decodeAt t.countAt p (List.range' l k) with
      | .error c => t.decodeLoop (List.range' l k) cur sum r = .error (.data c)
      | .ok (place, p') => ∃ r', t.decodeLoop (List.range' l k) cur sum r = .ok (t.symAt place, r') ∧
          r'.inv src ∧ r'.pos = p' := by
  intro k
  induction k with
  | zero => intro l cur sum r _ _ _ _ _ _ _; simp [Source.decodeAt, Table.decodeLoop]
  | succ k ih =>
    intro l cur sum r hl hk hi hp hb hc hs
    rw [List.range'_succ]
    by_cases hbc : r.bc.toNat < 1
    · have : src.size < p + l := by
        have := hi.2.1
        unfold Reader.pos at hp
        unfold Source.size
        omega
      simp [Source.decodeAt, this, Table.decodeLoop, Reader.take_short hbc]
    · obtain ⟨v, r', ht, hv, hi', hp', hb', hsi'⟩ := Reader.take_spec hi (by omega : 1 ≤ r.bc.toNat)
      have hsz : ¬ src.size < p + l := by
        have h1 := hi.2.1
        have h2 := hi.2.2.1
        unfold Reader.pos at hp
        unfold Source.size
        omega
      have hv' : v.toNat = (src.bit (p + (l - 1))).toNat := by
        rw [hv, show r.pos = p + (l - 1) by omega]; simp [Source.fieldAt]
      have hcode : src.codeAt p l = 2 * src.codeAt p (l - 1) + v.toNat := by
        obtain ⟨m, rfl⟩ : ∃ m, l = m + 1 := ⟨l - 1, by omega⟩
        rw [hv']; rfl
      have hsum : sumBelow t.countAt (l + 1) = sumBelow t.countAt l + t.countAt l := rfl
      have hfirst : firstCode t.countAt (l + 1) = 2 * (firstCode t.countAt l + t.countAt l) := by
        obtain ⟨m, rfl⟩ : ∃ m, l = m + 1 := ⟨l - 1, by omega⟩
        rfl
      have hend : src.codeEnds t.countAt p l ↔ 2 * cur + v.toNat < t.countAt l := by
        unfold Source.codeEnds; omega
      simp only [Source.decodeAt, hsz, if_false, Table.decodeLoop, ht]
      by_cases hcl : 2 * cur + v.toNat < t.countAt l
      · rw [if_pos (hend.mpr hcl)]
        simp only [if_pos hcl]
        refine ⟨r', ?_, hi', by omega⟩
        have : src.codePlace t.countAt p l = sum + (2 * cur + v.toNat) := by
          unfold Source.codePlace; omega
        rw [this]
      · rw [if_neg (fun h => hcl (hend.mp h))]
        simp only [if_neg hcl]
        exact ih (l + 1) _ _ r' (by omega) (by omega) hi' (by omega) (by rw [hsi']; omega)
          (by simp only [Nat.add_sub_cancel]; omega) (by omega)

/-- DECODEPROC is the abstract decoder (40_bitstream_reader.md R109, 42_symbol_decoder.md R162, R164). -/
theorem Table.decodeProc_spec {cap : Nat} (t : Table cap) {src : Source} {r : Reader} (h0 : t.countAt 0 = 0)
    (h : r.inv src) :
    match src.decodeAt t.countAt r.pos codeLengths with
    | .error c => t.decodeProc src r = .error (.data c)
    | .ok (place, p') => ∃ r', t.decodeProc src r = .ok (t.symAt place, r') ∧ r'.inv src ∧ r'.pos = p' := by
  obtain ⟨hi, hp⟩ := Reader.refill_inv h
  obtain ⟨k, -, -, -, h6⟩ := Reader.refill_reads (src := src) h.1 h.2.2.1
  exact Table.decodeLoop_spec t src r.pos 15 1 0 0 _ (by omega) (by omega) hi (by omega) (by omega)
    (by simp [firstCode, Source.codeAt]) (by simp [sumBelow, h0])

/-- DECODEPROC's loop reads no source byte and never adds to the buffer. -/
theorem Table.decodeLoop_si {cap : Nat} {t : Table cap} {v : BitVec 9} {r' : Reader} :
    ∀ {ls : List Nat} {cur sum : Nat} {r : Reader}, t.decodeLoop ls cur sum r = .ok (v, r') → r'.si = r.si := by
  intro ls
  induction ls with
  | nil => intro cur sum r h; simp [Table.decodeLoop] at h
  | cons l ls ih =>
    intro cur sum r h
    simp only [Table.decodeLoop] at h
    split at h
    · simp at h
    · rename_i ht
      have hs := Reader.take_si ht
      split at h
      · simp only [Except.ok.injEq, Prod.mk.injEq] at h
        rw [← h.2, hs]
      · rw [ih h, hs]

/-- The look-ahead that DECODEPROC leaves after a code of n bits (40_bitstream_reader.md R101, R108). -/
theorem Table.decodeProc_tookAfterRefill {cap : Nat} {t : Table cap} {src : Source} {r r' : Reader} {v : BitVec 9}
    {n : Nat} (h : r.inv src) (hd : t.decodeProc src r = .ok (v, r')) (hi : r'.inv src) (hp : r'.pos = r.pos + n) :
    r'.tookAfterRefill src n :=
  Reader.tookAfterRefill_of_si h hi (Table.decodeLoop_si hd) hp

/-- Where decoding succeeds, a code ends: the place is below the number of used symbols up to some length (42_symbol_decoder.md R163). -/
theorem Source.decodeAt_place {src : Source} {count : Nat → Nat} {p place p' : Nat} : ∀ {ls : List Nat},
    src.decodeAt count p ls = .ok (place, p') →
    ∃ l ∈ ls, src.codeEnds count p l ∧ place = src.codePlace count p l ∧ p' = p + l ∧ p + l ≤ src.size := by
  intro ls
  induction ls with
  | nil => intro h; simp [Source.decodeAt] at h
  | cons l ls ih =>
    intro h
    unfold Source.decodeAt at h
    split at h
    · simp at h
    · split at h
      · simp only [Except.ok.injEq, Prod.mk.injEq] at h
        exact ⟨l, by simp, by assumption, h.1.symm, h.2.symm, by omega⟩
      · obtain ⟨m, hm, h1⟩ := ih h
        exact ⟨m, by simp [hm], h1⟩

/-- The prefix sums rise. -/
theorem sumBelow_mono {count : Nat → Nat} {a b : Nat} (h : a ≤ b) : sumBelow count a ≤ sumBelow count b := by
  induction b with
  | zero => rw [Nat.le_zero.mp h]
  | succ b ih =>
    rcases Nat.lt_or_ge a (b + 1) with hlt | hge
    · exact le_trans (ih (by omega)) (Nat.le_add_right _ _)
    · rw [Nat.le_antisymm h hge]

/-- USED is the sum of the counts of all 16 lengths (10_state.md R28). -/
theorem Table.used_eq {cap : Nat} (t : Table cap) : t.used = sumBelow t.countAt 16 := by
  obtain ⟨v, ⟨⟨l⟩, hl⟩, s⟩ := t
  simp at hl
  match l, hl with
  | [a0, a1, a2, a3, a4, a5, a6, a7, a8, a9, a10, a11, a12, a13, a14, a15], _ =>
    simp [Table.used, sumBelow, Table.countAt]
    omega

/-- The decoded place is a used place (42_symbol_decoder.md R163). -/
theorem Source.decodeAt_used {cap : Nat} (t : Table cap) {src : Source} {p place p' : Nat}
    (h : src.decodeAt t.countAt p codeLengths = .ok (place, p')) : place < t.used ∧ p < p' ∧ p' ≤ src.size := by
  obtain ⟨l, hl, he, hp, hp', hs⟩ := Source.decodeAt_place h
  simp [codeLengths, Config.maxCodeLen] at hl
  have h1 : sumBelow t.countAt (l + 1) ≤ sumBelow t.countAt 16 := sumBelow_mono (by omega)
  have h2 : sumBelow t.countAt (l + 1) = sumBelow t.countAt l + t.countAt l := rfl
  rw [Table.used_eq]
  unfold Source.codePlace at hp
  unfold Source.codeEnds at he
  omega

/-- Decoding a symbol never faults. -/
theorem Table.decodeLoop_ne_fault {cap : Nat} {t : Table cap} {f : Fault} :
    ∀ (ls : List Nat) (c s : Nat) (r : Reader), t.decodeLoop ls c s r ≠ .error (.fault f)
  | [], _, _, _ => by simp [Table.decodeLoop]
  | l :: ls, c, s, r => by
    unfold Table.decodeLoop Reader.take
    split
    · rename_i h; split at h <;> simp at h; simp [← h]
    · split
      · simp
      · apply Table.decodeLoop_ne_fault

end Sys2Proof.Machine
end

