-- ==== Sys2Proof/Laws/Builder.lean ====
section
/-! SUPPORT. The table builder: BUILDPROC leaves the counts of the lengths and the used symbols in sorted order (41_tree_builder.md R133), and nothing else (R136). -/

namespace Sys2Proof.Machine

/-! ### Cells named by a 4-bit length -/

theorem cellOf_setCell {α : Type} (v : Vector α 16) (l m : BitVec 4) (x : α) :
    cellOf (setCell v l x) m = if m = l then x else cellOf v m := by
  unfold cellOf setCell
  rw [Vector.getElem_set]
  by_cases h : m = l
  · simp [h]
  · have : ¬ l.toNat = m.toNat := fun e => h (BitVec.eq_of_toNat_eq e.symm)
    simp [h, this]

theorem Table.countAt_eq_cellOf {cap : Nat} (t : Table cap) (l : BitVec 4) :
    t.countAt l.toNat = (cellOf t.count l).toNat := by
  have h : l.toNat < 16 := l.isLt
  simp [Table.countAt, cellOf, h]

/-! ### Steps 1 to 3: the counts -/

/-- Step 2 adds to each cell the number of symbols of its length, as long as no cell overflows. -/
theorem cellOf_foldl_count (m : BitVec 4) : ∀ (ls : List (BitVec 4)) (c : Vector (BitVec 9) 16),
    (cellOf c m).toNat + ls.count m < 512 →
    (cellOf (ls.foldl (fun c l => setCell c l (cellOf c l + 1)) c) m).toNat = (cellOf c m).toNat + ls.count m := by
  intro ls
  induction ls with
  | nil => intro c _; simp
  | cons l ls ih =>
    intro c h
    rw [List.foldl_cons]
    rw [List.count_cons] at h ⊢
    have e : (cellOf (setCell c l (cellOf c l + 1)) m).toNat = (cellOf c m).toNat + if l == m then 1 else 0 := by
      rw [cellOf_setCell]
      by_cases hm : m = l
      · subst hm
        simp at h ⊢
        omega
      · have : ¬ l = m := fun e => hm e.symm
        simp [hm, this]
    rw [ih _ (by rw [e]; omega), e]
    omega

theorem count_eq_countP_toNat (ls : List (BitVec 4)) (m : BitVec 4) :
    ls.count m = ls.countP fun v => v.toNat == m.toNat := by
  rw [List.count]
  congr 1
  funext v
  by_cases h : v = m
  · simp [h]
  · have : ¬ v.toNat = m.toNat := fun e => h (BitVec.eq_of_toNat_eq e)
    simp [h, this]

/-- The counts a build leaves are the numbers of symbols of each length, with `count[0] = 0` (41_tree_builder.md R132, 10_state.md R28). -/
theorem Table.countAt_build {cap : Nat} (t : Table cap) {ls : List (BitVec 4)} (h : ls.length < 512) {l : Nat}
    (hl : l < 16) : (t.build ls).countAt l = lengthCount ls l := by
  have hc := cellOf_foldl_count (BitVec.ofNat 4 l) ls (Vector.replicate 16 0)
  have h0 : cellOf (Vector.replicate 16 (0 : BitVec 9)) (BitVec.ofNat 4 l) = 0#9 := by simp [cellOf]
  have hle : ls.count (BitVec.ofNat 4 l) ≤ ls.length := List.count_le_length
  rw [h0] at hc
  have hc := hc (by simp; omega)
  rw [count_eq_countP_toNat] at hc
  have hto : (BitVec.ofNat 4 l).toNat = l := by simp; omega
  simp only [hto, BitVec.toNat_ofNat, Nat.zero_mod, Nat.zero_add] at hc
  unfold lengthCount
  by_cases hz : l = 0
  · subst hz
    simp [Table.build, Table.countAt]
  · rw [if_neg hz, ← hc]
    have : ¬ 0 = l := fun e => hz e.symm
    simp [Table.build, Table.countAt, countLengths, cellOf, hto, hl, this]

theorem sumBelow_congr {f g : Nat → Nat} {n : Nat} (h : ∀ l < n, f l = g l) : sumBelow f n = sumBelow g n := by
  induction n with
  | zero => rfl
  | succ n ih => simp only [sumBelow]; rw [ih fun l hl => h l (by omega), h n (by omega)]

/-- USED after a build. -/
theorem Table.used_build {cap : Nat} (t : Table cap) {ls : List (BitVec 4)} (h : ls.length < 512) :
    (t.build ls).used = sumBelow (lengthCount ls) 16 := by
  rw [Table.used_eq]
  exact sumBelow_congr fun l hl => Table.countAt_build t h hl

/-! ### The sorted symbols -/

theorem length_symsOfLength (ls : List (BitVec 4)) (l : Nat) :
    (symsOfLength ls l).length = ls.countP fun v => v.toNat == l := by
  unfold symsOfLength
  rw [← List.countP_eq_length_filter]
  have : ls = (List.range ls.length).map fun i => ls[i]?.getD 0 := by
    apply List.ext_getElem (by simp)
    intro i h1 h2
    simp [h1]
  conv => rhs; rw [this, List.countP_map]
  rfl

theorem symsOfLength_append (pre : List (BitVec 4)) (v : BitVec 4) (l : Nat) :
    symsOfLength (pre ++ [v]) l = symsOfLength pre l ++ if v.toNat = l then [pre.length] else [] := by
  unfold symsOfLength
  rw [List.length_append, List.length_singleton, List.range_succ, List.filter_append]
  congr 1
  · apply List.filter_congr
    intro i hi
    have := List.mem_range.mp hi
    simp [List.getElem?_append_left this]
  · by_cases h : v.toNat = l <;> simp [h]

theorem mem_symsOfLength {ls : List (BitVec 4)} {l i : Nat} (h : i ∈ symsOfLength ls l) : i < ls.length := by
  unfold symsOfLength at h
  exact List.mem_range.mp (List.mem_filter.mp h).1

/-- The sorted symbols up to a length: as many as the counts below it say. -/
theorem length_flatMap_syms (ls : List (BitVec 4)) : ∀ n,
    ((List.range' 1 n).flatMap (symsOfLength ls)).length = sumBelow (lengthCount ls) (n + 1) := by
  intro n
  induction n with
  | zero => simp [sumBelow, lengthCount]
  | succ n ih =>
    rw [List.range'_concat, List.flatMap_append, List.length_append, ih]
    simp only [List.flatMap_cons, List.flatMap_nil, List.append_nil, length_symsOfLength]
    rw [show sumBelow (lengthCount ls) (n + 1 + 1) = sumBelow (lengthCount ls) (n + 1) + lengthCount ls (n + 1) from rfl]
    simp [lengthCount, Nat.add_comm 1 n]

/-- There are USED sorted symbols (41_tree_builder.md R133). -/
theorem length_sortedSyms (ls : List (BitVec 4)) : (sortedSyms ls).length = sumBelow (lengthCount ls) 16 :=
  length_flatMap_syms ls 15

/-- Each length's group stands at its prefix sum (41_tree_builder.md R133). -/
theorem sortedSyms_getElem? (ls : List (BitVec 4)) {l k : Nat} (h1 : 1 ≤ l) (h2 : l < 16)
    (hk : k < lengthCount ls l) :
    (sortedSyms ls)[sumBelow (lengthCount ls) l + k]? = (symsOfLength ls l)[k]? := by
  obtain ⟨m, rfl⟩ : ∃ m, l = m + 1 := ⟨l - 1, by omega⟩
  have e : List.range' 1 Config.maxCodeLen = List.range' 1 m ++ ((m + 1) :: List.range' (m + 2) (14 - m)) := by
    rw [← List.range'_succ (s := m + 1) (n := 14 - m) (step := 1), ← Nat.add_comm 1 m, List.range'_append_1]
    congr 1
    simp [Config.maxCodeLen]
    omega
  have hlen := length_flatMap_syms ls m
  have hk' : k < (symsOfLength ls (m + 1)).length := by
    rw [length_symsOfLength]; simpa [lengthCount] using hk
  unfold sortedSyms
  rw [e, List.flatMap_append, List.getElem?_append_right (by omega), hlen, Nat.add_sub_cancel_left,
    List.flatMap_cons, List.getElem?_append_left hk']

/-- Every place below a prefix sum lies in some length's group. -/
theorem exists_group {count : Nat → Nat} {n i : Nat} (h : i < sumBelow count n) :
    ∃ l < n, ∃ k < count l, i = sumBelow count l + k := by
  induction n with
  | zero => simp [sumBelow] at h
  | succ n ih =>
    by_cases hi : i < sumBelow count n
    · obtain ⟨l, hl, h⟩ := ih hi; exact ⟨l, by omega, h⟩
    · exact ⟨n, by omega, i - sumBelow count n, by simp only [sumBelow] at h; omega, by omega⟩

/-- Every sorted symbol is an index of the lengths. -/
theorem mem_sortedSyms {ls : List (BitVec 4)} {i : Nat} (h : i ∈ sortedSyms ls) : i < ls.length := by
  obtain ⟨l, -, hl⟩ := List.mem_flatMap.mp h
  exact mem_symsOfLength hl

/-! ### Step 5: the placement -/

/-- What step 5 leaves, with `pre` already placed and the bases `base` of the lengths kept apart. -/
theorem placeSyms_spec {cap : Nat} (base total : BitVec 4 → Nat)
    (hcap : ∀ l, l ≠ 0 → base l + total l ≤ cap)
    (hsep : ∀ l m, l ≠ 0 → m ≠ 0 → l ≠ m → base l + total l ≤ base m ∨ base m + total m ≤ base l) :
    ∀ (rest pre : List (BitVec 4)) (sym : Vector (BitVec 9) cap) (offs : Vector Nat 16),
      (∀ l, l ≠ 0 → (pre ++ rest).count l = total l) →
      (∀ l, l ≠ 0 → cellOf offs l = base l + pre.count l) →
      (∀ l, l ≠ 0 → ∀ k (h : k < (symsOfLength pre l.toNat).length),
        sym[base l + k]? = some (BitVec.ofNat 9 (symsOfLength pre l.toNat)[k])) →
      (∀ l, l ≠ 0 → ∀ k (h : k < (symsOfLength (pre ++ rest) l.toNat).length),
        (placeSyms rest pre.length sym offs)[base l + k]? =
          some (BitVec.ofNat 9 (symsOfLength (pre ++ rest) l.toNat)[k])) ∧
      ∀ x, (∀ l, l ≠ 0 → x < base l ∨ base l + total l ≤ x) →
        (placeSyms rest pre.length sym offs)[x]? = sym[x]? := by
  intro rest
  induction rest with
  | nil =>
    intro pre sym offs _ _ hsym
    refine ⟨fun l hl k hk => ?_, fun x _ => rfl⟩
    have e : symsOfLength (pre ++ []) l.toNat = symsOfLength pre l.toNat := by rw [List.append_nil]
    simp only [placeSyms, e] at hk ⊢
    exact hsym l hl k hk
  | cons v rest ih =>
    intro pre sym offs htot hoffs hsym
    have e1 : pre ++ v :: rest = (pre ++ [v]) ++ rest := by simp
    have e2 : (pre ++ [v]).length = pre.length + 1 := by simp
    have hcl : ∀ l : BitVec 4, (symsOfLength pre l.toNat).length = pre.count l := fun l => by
      rw [length_symsOfLength, count_eq_countP_toNat]
    rw [e1] at htot ⊢
    unfold placeSyms
    rw [← e2]
    by_cases hv : v = 0
    · rw [if_pos hv]
      have hvl : ∀ l : BitVec 4, l ≠ 0 → ¬ v.toNat = l.toNat := fun l hl e =>
        hl (by rw [← BitVec.eq_of_toNat_eq e, hv])
      refine ih (pre ++ [v]) sym offs htot (fun l hl => ?_) (fun l hl k hk => ?_)
      · rw [hoffs l hl, List.count_append]
        have : ¬ v = l := fun e => hvl l hl (by rw [e])
        simp [this]
      · have e3 : symsOfLength (pre ++ [v]) l.toNat = symsOfLength pre l.toNat := by
          rw [symsOfLength_append, if_neg (hvl l hl), List.append_nil]
        simp only [e3] at hk ⊢
        exact hsym l hl k hk
    · rw [if_neg hv]
      have hvtot : pre.count v + 1 ≤ total v := by
        have := htot v hv
        simp only [List.count_append, List.count_singleton_self] at this
        omega
      have hplace : cellOf offs v = base v + pre.count v := hoffs v hv
      obtain ⟨i1, i2⟩ := ih (pre ++ [v]) (sym.setIfInBounds (cellOf offs v) (BitVec.ofNat 9 pre.length))
        (setCell offs v (cellOf offs v + 1)) htot
        (fun l hl => by
          rw [cellOf_setCell, List.count_append]
          by_cases h : l = v
          · subst h; simp [hplace]; omega
          · have : ¬ v = l := fun e => h e.symm
            simp [h, this, hoffs l hl])
        (fun l hl k hk => by
          have hin : base v + pre.count v < cap := by have := hcap v hv; omega
          by_cases h : l = v
          · subst h
            simp only [symsOfLength_append, if_true, List.length_append, List.length_singleton, hcl] at hk ⊢
            by_cases hlast : k = pre.count l
            · subst hlast
              rw [List.getElem_append_right (by rw [hcl])]
              simp [hplace, hin, hcl]
            · have hk' : k < (symsOfLength pre l.toNat).length := by rw [hcl]; omega
              rw [List.getElem_append_left hk', ← hsym l hl k hk', hplace,
                Vector.getElem?_setIfInBounds_ne (by omega)]
          · have hne : ¬ v.toNat = l.toNat := fun e => h (BitVec.eq_of_toNat_eq e.symm)
            have e3 : symsOfLength (pre ++ [v]) l.toNat = symsOfLength pre l.toNat := by
              rw [symsOfLength_append, if_neg hne, List.append_nil]
            simp only [e3] at hk ⊢
            rw [← hsym l hl k hk, hplace, Vector.getElem?_setIfInBounds_ne]
            have hk2 := hk
            rw [hcl] at hk2
            have h1 := htot l hl
            have h2 := hsep l v hl hv h
            simp only [List.count_append] at h1
            omega)
      refine ⟨i1, fun x hx => ?_⟩
      rw [i2 x hx, hplace, Vector.getElem?_setIfInBounds_ne]
      have := hx v hv
      omega

/-! ### BUILDPROC -/

theorem cellOf_prefixSums (c : Vector (BitVec 9) 16) (l : BitVec 4) :
    cellOf (prefixSums c) l = ((c.toList.take l.toNat).map BitVec.toNat).sum := by
  simp [cellOf, prefixSums]

/-- OFFS as the prefix sums of a table's counts (41_tree_builder.md R132 step 4). -/
theorem sum_take_count {cap : Nat} (t : Table cap) : ∀ l ≤ 16,
    ((t.count.toList.take l).map BitVec.toNat).sum = sumBelow t.countAt l := by
  intro l
  induction l with
  | zero => intro _; simp [sumBelow]
  | succ l ih =>
    intro hl
    have hlen : l < t.count.toList.length := by simp; omega
    rw [List.take_add_one, List.map_append, List.sum_append, ih (by omega)]
    have h16 : l < 16 := by omega
    simp [sumBelow, Table.countAt, h16]

/-- The bases of two lengths keep apart by their counts. -/
theorem sumBelow_sep (count : Nat → Nat) {l m : Nat} (h : l ≠ m) :
    sumBelow count l + count l ≤ sumBelow count m ∨ sumBelow count m + count m ≤ sumBelow count l := by
  rcases Nat.lt_or_gt_of_ne h with h | h
  · exact .inl (sumBelow_mono (count := count) (a := l + 1) (by omega))
  · exact .inr (sumBelow_mono (count := count) (a := m + 1) (by omega))

/-- What BUILDPROC leaves in the symbol cells: the used symbols in sorted order from cell 0 on
(41_tree_builder.md R133), and every other cell as it was (R136). -/
theorem Table.sym_build {cap : Nat} (t : Table cap) {ls : List (BitVec 4)} (h512 : ls.length < 512)
    (hcap : sumBelow (lengthCount ls) 16 ≤ cap) :
    (∀ i (h : i < (sortedSyms ls).length), (t.build ls).sym[i]? = some (BitVec.ofNat 9 (sortedSyms ls)[i])) ∧
      ∀ i, sumBelow (lengthCount ls) 16 ≤ i → (t.build ls).sym[i]? = t.sym[i]? := by
  have hb : ∀ l : BitVec 4, l ≠ 0 → l.toNat ≠ 0 := fun l hl e => hl (BitVec.eq_of_toNat_eq e)
  have hle : ∀ l : BitVec 4, sumBelow (lengthCount ls) l.toNat + lengthCount ls l.toNat ≤
      sumBelow (lengthCount ls) 16 := fun l => by
    have := l.isLt
    exact sumBelow_mono (count := lengthCount ls) (a := l.toNat + 1) (by omega)
  have hcnt : ∀ l : BitVec 4, l ≠ 0 → ls.count l = lengthCount ls l.toNat := fun l hl => by
    rw [count_eq_countP_toNat, lengthCount, if_neg (hb l hl)]
  obtain ⟨p1, p2⟩ := placeSyms_spec (cap := cap) (fun l => sumBelow (lengthCount ls) l.toNat)
    (fun l => lengthCount ls l.toNat) (fun l _ => le_trans (hle l) hcap)
    (fun l m _ _ hne => sumBelow_sep (lengthCount ls) fun e => hne (BitVec.eq_of_toNat_eq e))
    ls [] t.sym (prefixSums ((countLengths ls).set 0 0))
    (fun l hl => by simpa using hcnt l hl)
    (fun l hl => by
      have e := sum_take_count (t.build ls) l.toNat (by have := l.isLt; omega)
      rw [cellOf_prefixSums]
      simp only [List.count_nil, Nat.add_zero]
      rw [← sumBelow_congr (f := (t.build ls).countAt) fun k hk =>
        Table.countAt_build t h512 (by have := l.isLt; omega), ← e]
      rfl)
    (fun l _ k hk => by simp [symsOfLength] at hk)
  have hsym : (t.build ls).sym = placeSyms ls 0 t.sym (prefixSums ((countLengths ls).set 0 0)) := rfl
  rw [List.nil_append] at p1
  rw [List.length_nil] at p1 p2
  rw [hsym]
  refine ⟨fun i hi => ?_, fun i hi => p2 i fun l _ => .inr (le_trans (hle l) hi)⟩
  obtain ⟨l, hl, k, hk, rfl⟩ := exists_group (count := lengthCount ls) (n := 16) (by rwa [← length_sortedSyms])
  have hl0 : l ≠ 0 := fun e => by subst e; simp [lengthCount] at hk
  have hto : (BitVec.ofNat 4 l).toNat = l := by simp; omega
  have hk' : k < (symsOfLength ls l).length := by rw [length_symsOfLength]; simpa [lengthCount, hl0] using hk
  have e1 := sortedSyms_getElem? ls (by omega) hl hk
  rw [List.getElem?_eq_getElem hi, List.getElem?_eq_getElem hk', Option.some.injEq] at e1
  have := p1 (BitVec.ofNat 4 l) (fun e => hl0 (by rw [← hto, e]; rfl)) k (by rw [hto]; exact hk')
  simp only [hto] at this
  rw [this, e1]

theorem lengthCount_cons (v : BitVec 4) (ls : List (BitVec 4)) (l : Nat) :
    lengthCount (v :: ls) l ≤ lengthCount ls l + if v.toNat = l then 1 else 0 := by
  unfold lengthCount
  split
  · omega
  · rw [List.countP_cons]
    by_cases h : v.toNat = l <;> simp [h]

/-- No more symbols are used than there are lengths (41_tree_builder.md R133). -/
theorem used_le_length (ls : List (BitVec 4)) : sumBelow (lengthCount ls) 16 ≤ ls.length := by
  induction ls with
  | nil => simp [sumBelow, lengthCount]
  | cons v ls ih =>
    have h : ∀ n, sumBelow (lengthCount (v :: ls)) n ≤ sumBelow (lengthCount ls) n + if v.toNat < n then 1 else 0 := by
      intro n
      induction n with
      | zero => simp [sumBelow]
      | succ n ihn =>
        have h1 := lengthCount_cons v ls n
        simp only [sumBelow]
        split at h1 <;> split at ihn <;> split <;> omega
    have h16 := h 16
    rw [if_pos (show v.toNat < 16 from v.isLt)] at h16
    rw [List.length_cons]
    omega

/-- A build leaves a table in order (10_state.md R28, 42_symbol_decoder.md R163), if its symbols fit the capacity. -/
theorem Table.build_ok {cap : Nat} (t : Table cap) {ls : List (BitVec 4)} (h : ls.length ≤ cap) (hc : cap < 512) :
    (t.build ls).ok := by
  have h5 : ls.length < 512 := by omega
  have hu := used_le_length ls
  refine ⟨?_, ?_, fun i hi => ?_⟩
  · rw [Table.countAt_build t h5 (by omega)]; rfl
  · rw [Table.used_build t h5]; omega
  · rw [Table.used_build t h5] at hi
    have hi' : i < (sortedSyms ls).length := by rwa [length_sortedSyms]
    have hm := mem_sortedSyms (List.getElem_mem hi')
    have := (Table.sym_build t h5 (by omega)).1 i hi'
    simp only [Table.symAt, this, Option.getD_some, BitVec.toNat_ofNat]
    omega

/-- The used cells of a built table are the sorted symbols (41_tree_builder.md R133). -/
theorem Table.symAt_build {cap : Nat} (t : Table cap) {ls : List (BitVec 4)} (h : ls.length ≤ cap) (hc : cap < 512)
    {i : Nat} (hi : i < (sortedSyms ls).length) : ((t.build ls).symAt i).toNat = (sortedSyms ls)[i] := by
  have hu := used_le_length ls
  have hm := mem_sortedSyms (List.getElem_mem hi)
  have := (Table.sym_build t (by omega : ls.length < 512) (by omega)).1 i hi
  simp only [Table.symAt, this, Option.getD_some, BitVec.toNat_ofNat]
  omega

end Sys2Proof.Machine
end

