-- ==== Sys2Proof/Laws/State.lean ====
section
/-! SUPPORT. One lemma per field of State for each update the machine makes, so that no proof unfolds a record update. -/

namespace Sys2Proof.Machine

/-! ### return v -/

@[simp] theorem State.ok_src (s : State) (v : Word) : (s.ok v).src = s.src := rfl
@[simp] theorem State.ok_reader (s : State) (v : Word) : (s.ok v).reader = s.reader := rfl
@[simp] theorem State.ok_err (s : State) (v : Word) : (s.ok v).err = s.err := rfl
@[simp] theorem State.ok_errCause (s : State) (v : Word) : (s.ok v).errCause = s.errCause := rfl
@[simp] theorem State.ok_result (s : State) (v : Word) : (s.ok v).result = v := rfl
@[simp] theorem State.ok_desc (s : State) (v : Word) : (s.ok v).desc = s.desc := rfl
@[simp] theorem State.ok_lt (s : State) (v : Word) : (s.ok v).lt = s.lt := rfl
@[simp] theorem State.ok_dt (s : State) (v : Word) : (s.ok v).dt = s.dt := rfl
@[simp] theorem State.ok_clt (s : State) (v : Word) : (s.ok v).clt = s.clt := rfl
@[simp] theorem State.ok_lens (s : State) (v : Word) : (s.ok v).lens = s.lens := rfl
@[simp] theorem State.ok_response (s : State) (v : Word) : (s.ok v).response = some { status := .ok, result := v } := rfl
@[simp] theorem State.ok_port (s : State) (v : Word) : (s.ok v).port = s.port := rfl
@[simp] theorem State.ok_draws (s : State) (v : Word) : (s.ok v).draws = s.draws := rfl

/-! ### a response without a result -/

@[simp] theorem State.respond_src (s : State) (st : Status) : (s.respond st).src = s.src := rfl
@[simp] theorem State.respond_reader (s : State) (st : Status) : (s.respond st).reader = s.reader := rfl
@[simp] theorem State.respond_err (s : State) (st : Status) : (s.respond st).err = s.err := rfl
@[simp] theorem State.respond_errCause (s : State) (st : Status) : (s.respond st).errCause = s.errCause := rfl
@[simp] theorem State.respond_result (s : State) (st : Status) : (s.respond st).result = s.result := rfl
@[simp] theorem State.respond_desc (s : State) (st : Status) : (s.respond st).desc = s.desc := rfl
@[simp] theorem State.respond_lt (s : State) (st : Status) : (s.respond st).lt = s.lt := rfl
@[simp] theorem State.respond_dt (s : State) (st : Status) : (s.respond st).dt = s.dt := rfl
@[simp] theorem State.respond_clt (s : State) (st : Status) : (s.respond st).clt = s.clt := rfl
@[simp] theorem State.respond_lens (s : State) (st : Status) : (s.respond st).lens = s.lens := rfl
@[simp] theorem State.respond_response (s : State) (st : Status) : (s.respond st).response = some { status := st, result := Config.freeResponse s.draws } := rfl
@[simp] theorem State.respond_port (s : State) (st : Status) : (s.respond st).port = s.port := rfl
@[simp] theorem State.respond_draws (s : State) (st : Status) : (s.respond st).draws = s.draws + 1 := rfl

/-! ### ABORTED -/

@[simp] theorem State.abort_src (s : State) : (s.abort).src = s.src := rfl
@[simp] theorem State.abort_reader (s : State) : (s.abort).reader = s.reader := rfl
@[simp] theorem State.abort_err (s : State) : (s.abort).err = s.err := rfl
@[simp] theorem State.abort_errCause (s : State) : (s.abort).errCause = s.errCause := rfl
@[simp] theorem State.abort_result (s : State) : (s.abort).result = s.result := rfl
@[simp] theorem State.abort_desc (s : State) : (s.abort).desc = s.desc := rfl
@[simp] theorem State.abort_lt (s : State) : (s.abort).lt = s.lt := rfl
@[simp] theorem State.abort_dt (s : State) : (s.abort).dt = s.dt := rfl
@[simp] theorem State.abort_clt (s : State) : (s.abort).clt = s.clt := rfl
@[simp] theorem State.abort_lens (s : State) : (s.abort).lens = s.lens := rfl
@[simp] theorem State.abort_response (s : State) : (s.abort).response = some { status := .aborted, result := Config.freeResponse s.draws } := rfl
@[simp] theorem State.abort_port (s : State) : (s.abort).port = s.port := rfl
@[simp] theorem State.abort_draws (s : State) : (s.abort).draws = s.draws + 1 := rfl

/-! ### the entry into an error -/

@[simp] theorem State.enterError_src (s : State) (st : Status) (c : BitVec 4) : (s.enterError st c).src = s.src := rfl
@[simp] theorem State.enterError_reader (s : State) (st : Status) (c : BitVec 4) : (s.enterError st c).reader = s.reader := rfl
@[simp] theorem State.enterError_err (s : State) (st : Status) (c : BitVec 4) : (s.enterError st c).err = true := rfl
@[simp] theorem State.enterError_errCause (s : State) (st : Status) (c : BitVec 4) : (s.enterError st c).errCause = c := rfl
@[simp] theorem State.enterError_result (s : State) (st : Status) (c : BitVec 4) : (s.enterError st c).result = s.result := rfl
@[simp] theorem State.enterError_desc (s : State) (st : Status) (c : BitVec 4) : (s.enterError st c).desc = s.desc := rfl
@[simp] theorem State.enterError_lt (s : State) (st : Status) (c : BitVec 4) : (s.enterError st c).lt = s.lt := rfl
@[simp] theorem State.enterError_dt (s : State) (st : Status) (c : BitVec 4) : (s.enterError st c).dt = s.dt := rfl
@[simp] theorem State.enterError_clt (s : State) (st : Status) (c : BitVec 4) : (s.enterError st c).clt = s.clt := rfl
@[simp] theorem State.enterError_lens (s : State) (st : Status) (c : BitVec 4) : (s.enterError st c).lens = s.lens := rfl
@[simp] theorem State.enterError_response (s : State) (st : Status) (c : BitVec 4) : (s.enterError st c).response = some { status := st, result := Config.freeResponse s.draws } := rfl
@[simp] theorem State.enterError_port (s : State) (st : Status) (c : BitVec 4) : (s.enterError st c).port = s.port := rfl
@[simp] theorem State.enterError_draws (s : State) (st : Status) (c : BitVec 4) : (s.enterError st c).draws = s.draws + 1 := rfl

/-! ### CmdError: what it never changes -/

@[simp] theorem State.raiseCmd_src (s : State) (c : CmdCause) : (s.raiseCmd c).src = s.src := by
  unfold State.raiseCmd; split <;> simp_all
@[simp] theorem State.raiseCmd_reader (s : State) (c : CmdCause) : (s.raiseCmd c).reader = s.reader := by
  unfold State.raiseCmd; split <;> simp_all
@[simp] theorem State.raiseCmd_err (s : State) (c : CmdCause) : (s.raiseCmd c).err = true := by
  unfold State.raiseCmd; split <;> simp_all
@[simp] theorem State.raiseCmd_errCause (s : State) (c : CmdCause) : (s.raiseCmd c).errCause = if s.err then s.errCause else c.code := by
  unfold State.raiseCmd; split <;> simp_all
@[simp] theorem State.raiseCmd_result (s : State) (c : CmdCause) : (s.raiseCmd c).result = s.result := by
  unfold State.raiseCmd; split <;> simp_all
@[simp] theorem State.raiseCmd_desc (s : State) (c : CmdCause) : (s.raiseCmd c).desc = s.desc := by
  unfold State.raiseCmd; split <;> simp_all
@[simp] theorem State.raiseCmd_lt (s : State) (c : CmdCause) : (s.raiseCmd c).lt = s.lt := by
  unfold State.raiseCmd; split <;> simp_all
@[simp] theorem State.raiseCmd_dt (s : State) (c : CmdCause) : (s.raiseCmd c).dt = s.dt := by
  unfold State.raiseCmd; split <;> simp_all
@[simp] theorem State.raiseCmd_clt (s : State) (c : CmdCause) : (s.raiseCmd c).clt = s.clt := by
  unfold State.raiseCmd; split <;> simp_all
@[simp] theorem State.raiseCmd_lens (s : State) (c : CmdCause) : (s.raiseCmd c).lens = s.lens := by
  unfold State.raiseCmd; split <;> simp_all
@[simp] theorem State.raiseCmd_response (s : State) (c : CmdCause) : (s.raiseCmd c).response = some { status := if s.err then .aborted else .cmdError, result := Config.freeResponse s.draws } := by
  unfold State.raiseCmd; split <;> simp_all
@[simp] theorem State.raiseCmd_port (s : State) (c : CmdCause) : (s.raiseCmd c).port = s.port := by
  unfold State.raiseCmd; split <;> simp_all
@[simp] theorem State.raiseCmd_draws (s : State) (c : CmdCause) : (s.raiseCmd c).draws = s.draws + 1 := by
  unfold State.raiseCmd; split <;> simp_all

/-! ### DataError -/

@[simp] theorem State.raiseData_src (s : State) (c : DataCause) : (s.raiseData c).src = s.src := rfl
@[simp] theorem State.raiseData_reader (s : State) (c : DataCause) : (s.raiseData c).reader = { si := Config.freeSi s.draws, tag := Config.freeTag s.draws, bc := Config.freeBc s.draws } := rfl
@[simp] theorem State.raiseData_err (s : State) (c : DataCause) : (s.raiseData c).err = true := rfl
@[simp] theorem State.raiseData_errCause (s : State) (c : DataCause) : (s.raiseData c).errCause = c.code := rfl
@[simp] theorem State.raiseData_result (s : State) (c : DataCause) : (s.raiseData c).result = Config.freeResult s.draws := rfl
@[simp] theorem State.raiseData_desc (s : State) (c : DataCause) : (s.raiseData c).desc = { hlit := Config.freeHlit s.draws, hdist := Config.freeHdist s.draws, hclen := Config.freeHclen s.draws } := rfl
@[simp] theorem State.raiseData_lt (s : State) (c : DataCause) : (s.raiseData c).lt = Table.drawn s.draws 0 Config.ltCap := rfl
@[simp] theorem State.raiseData_dt (s : State) (c : DataCause) : (s.raiseData c).dt = Table.drawn s.draws 1 Config.dtCap := rfl
@[simp] theorem State.raiseData_clt (s : State) (c : DataCause) : (s.raiseData c).clt = Table.drawn s.draws 2 Config.cltCap := rfl
@[simp] theorem State.raiseData_lens (s : State) (c : DataCause) : (s.raiseData c).lens = Vector.ofFn fun i => some (Config.freeLens s.draws i.val) := rfl
@[simp] theorem State.raiseData_response (s : State) (c : DataCause) : (s.raiseData c).response = some { status := .dataError, result := Config.freeResponse (s.draws + 1) } := rfl
@[simp] theorem State.raiseData_port (s : State) (c : DataCause) : (s.raiseData c).port = s.port := rfl
@[simp] theorem State.raiseData_draws (s : State) (c : DataCause) : (s.raiseData c).draws = s.draws + 2 := rfl

/-! ### a command word at the port -/

@[simp] theorem State.withFetchWord_src (s : State) (nbits w : Nat) : (s.withFetchWord nbits w).src = s.src := rfl
@[simp] theorem State.withFetchWord_reader (s : State) (nbits w : Nat) : (s.withFetchWord nbits w).reader = s.reader := rfl
@[simp] theorem State.withFetchWord_err (s : State) (nbits w : Nat) : (s.withFetchWord nbits w).err = s.err := rfl
@[simp] theorem State.withFetchWord_errCause (s : State) (nbits w : Nat) : (s.withFetchWord nbits w).errCause = s.errCause := rfl
@[simp] theorem State.withFetchWord_result (s : State) (nbits w : Nat) : (s.withFetchWord nbits w).result = s.result := rfl
@[simp] theorem State.withFetchWord_desc (s : State) (nbits w : Nat) : (s.withFetchWord nbits w).desc = s.desc := rfl
@[simp] theorem State.withFetchWord_lt (s : State) (nbits w : Nat) : (s.withFetchWord nbits w).lt = s.lt := rfl
@[simp] theorem State.withFetchWord_dt (s : State) (nbits w : Nat) : (s.withFetchWord nbits w).dt = s.dt := rfl
@[simp] theorem State.withFetchWord_clt (s : State) (nbits w : Nat) : (s.withFetchWord nbits w).clt = s.clt := rfl
@[simp] theorem State.withFetchWord_lens (s : State) (nbits w : Nat) : (s.withFetchWord nbits w).lens = s.lens := rfl
@[simp] theorem State.withFetchWord_response (s : State) (nbits w : Nat) : (s.withFetchWord nbits w).response = s.response := rfl
@[simp] theorem State.withFetchWord_port (s : State) (nbits w : Nat) : (s.withFetchWord nbits w).port = .command (BitVec.ofNat 32 (w % 2 ^ nbits)) :: s.port := rfl
@[simp] theorem State.withFetchWord_draws (s : State) (nbits w : Nat) : (s.withFetchWord nbits w).draws = s.draws := rfl

/-! ### tables -/

@[simp] theorem State.setTable_src (s : State) (tbl : Tbl) (t : Table tbl.cap) : (s.setTable tbl t).src = s.src := by
  cases tbl <;> rfl
@[simp] theorem State.setTable_reader (s : State) (tbl : Tbl) (t : Table tbl.cap) : (s.setTable tbl t).reader = s.reader := by
  cases tbl <;> rfl
@[simp] theorem State.setTable_err (s : State) (tbl : Tbl) (t : Table tbl.cap) : (s.setTable tbl t).err = s.err := by
  cases tbl <;> rfl
@[simp] theorem State.setTable_errCause (s : State) (tbl : Tbl) (t : Table tbl.cap) : (s.setTable tbl t).errCause = s.errCause := by
  cases tbl <;> rfl
@[simp] theorem State.setTable_result (s : State) (tbl : Tbl) (t : Table tbl.cap) : (s.setTable tbl t).result = s.result := by
  cases tbl <;> rfl
@[simp] theorem State.setTable_desc (s : State) (tbl : Tbl) (t : Table tbl.cap) : (s.setTable tbl t).desc = s.desc := by
  cases tbl <;> rfl
@[simp] theorem State.setTable_lens (s : State) (tbl : Tbl) (t : Table tbl.cap) : (s.setTable tbl t).lens = s.lens := by
  cases tbl <;> rfl
@[simp] theorem State.setTable_response (s : State) (tbl : Tbl) (t : Table tbl.cap) : (s.setTable tbl t).response = s.response := by
  cases tbl <;> rfl
@[simp] theorem State.setTable_port (s : State) (tbl : Tbl) (t : Table tbl.cap) : (s.setTable tbl t).port = s.port := by
  cases tbl <;> rfl
@[simp] theorem State.setTable_draws (s : State) (tbl : Tbl) (t : Table tbl.cap) : (s.setTable tbl t).draws = s.draws := by
  cases tbl <;> rfl

@[simp] theorem State.setTable_lt_self (s : State) (t : Table Tbl.lt.cap) : (s.setTable .lt t).lt = t := rfl
@[simp] theorem State.setTable_dt_self (s : State) (t : Table Tbl.dt.cap) : (s.setTable .dt t).dt = t := rfl
@[simp] theorem State.setTable_clt_self (s : State) (t : Table Tbl.clt.cap) : (s.setTable .clt t).clt = t := rfl

/-- Writing a writable table and reading it back. -/
@[simp] theorem State.table_setTable_self (s : State) (tbl : Tbl) (t : Table tbl.cap) (h : tbl.writable = true) :
    (s.setTable tbl t).table tbl = t := by
  cases tbl <;> first | rfl | simp [Tbl.writable] at h

/-- Writing one table leaves every other table. -/
theorem State.table_setTable_of_ne (s : State) {tbl other : Tbl} (t : Table tbl.cap) (h : other ≠ tbl) :
    (s.setTable tbl t).table other = s.table other := by
  cases tbl <;> cases other <;> first | rfl | exact absurd rfl h

/-- FLT and FDT are always valid (44_observation.md R213). -/
@[simp] theorem State.table_flt_valid (s : State) : (s.table .flt).valid = true := rfl
@[simp] theorem State.table_fdt_valid (s : State) : (s.table .fdt).valid = true := rfl

/-! ### The state after reset -/

@[simp] theorem State.reset_src : State.reset.src = { mem := [], len := 0 } := rfl
@[simp] theorem State.reset_reader : State.reset.reader = { si := 0, tag := 0, bc := 0 } := rfl
@[simp] theorem State.reset_err : State.reset.err = false := rfl
@[simp] theorem State.reset_errCause : State.reset.errCause = 0 := rfl
@[simp] theorem State.reset_result : State.reset.result = 0 := rfl
@[simp] theorem State.reset_desc : State.reset.desc = { hlit := 0, hdist := 0, hclen := 0 } := rfl
@[simp] theorem State.reset_lt : State.reset.lt = Table.unbuilt Config.ltCap := rfl
@[simp] theorem State.reset_dt : State.reset.dt = Table.unbuilt Config.dtCap := rfl
@[simp] theorem State.reset_clt : State.reset.clt = Table.unbuilt Config.cltCap := rfl
@[simp] theorem State.reset_lens : State.reset.lens = Vector.replicate Config.lensSize none := rfl
@[simp] theorem State.reset_response : State.reset.response = none := rfl
@[simp] theorem State.reset_port : State.reset.port = [] := rfl

end Sys2Proof.Machine
end

