-- ==== Sys2Proof/Laws/Command.lean ====
section
/-! SUPPORT. What opening and closing a command can do: the three ways a procedure ends, and the tests before it (60_exceptions.md R232 to R237). -/

namespace Sys2Proof.Machine

@[simp] theorem finish_ok (v : Word) (t s : State) : finish (.ok (v, t)) s = .next (t.ok v) := rfl
@[simp] theorem finish_data (c : DataCause) (s : State) : finish (.error (.data c)) s = .next (s.raiseData c) := rfl
@[simp] theorem finish_cmd (c : CmdCause) (s : State) : finish (.error (.cmd c)) s = .next (s.raiseCmd c) := rfl
@[simp] theorem finish_fault (f : Fault) (s : State) : finish (.error (.fault f)) s = .fault f := rfl

/-- Everything the end of a command can answer. -/
theorem finish_next {r : Except Stop (Word × State)} {s t : State} (h : finish r s = .next t) :
    (∃ v u, r = .ok (v, u) ∧ t = u.ok v) ∨ (∃ c, r = .error (.data c) ∧ t = s.raiseData c) ∨
      (∃ c, r = .error (.cmd c) ∧ t = s.raiseCmd c) := by
  rcases r with (c | c | f) | ⟨v, u⟩ <;> simp at h
  · exact .inr (.inl ⟨c, rfl, h.symm⟩)
  · exact .inr (.inr ⟨c, rfl, h.symm⟩)
  · exact .inl ⟨v, u, rfl, h.symm⟩

/-- The end of a command is never a refusal, and it is a fault only where the procedure faults. -/
theorem finish_ne_refused (r : Except Stop (Word × State)) (s : State) (f : Refusal) : finish r s ≠ .refused f := by
  rcases r with (c | c | f) | ⟨v, u⟩ <;> simp

@[simp] theorem checked_legal (p : State → Except Stop (Word × State)) (s : State) :
    checked true p s = finish (p s) s := rfl
@[simp] theorem checked_illegal (p : State → Except Stop (Word × State)) (s : State) :
    checked false p s = .next (s.raiseCmd .illegalCmd) := rfl
@[simp] theorem observe_eq (l : Bool) (p : State → Except Stop (Word × State)) (s : State) :
    observe l p s = checked l p s := rfl

/-- While ERR = 1 a command that is no observation is refused (60_exceptions.md R237). -/
theorem command_of_err {l : Bool} {p : State → Except Stop (Word × State)} {s : State} (h : s.err = true) :
    command l p s = .next s.abort := by simp [command, h]

/-- With ERR = 0 a command goes to its legality test. -/
theorem command_of_no_err {l : Bool} {p : State → Except Stop (Word × State)} {s : State} (h : s.err = false) :
    command l p s = checked l p s := by simp [command, h]

/-- Everything the legality test and the procedure behind it can answer. -/
theorem checked_next {l : Bool} {p : State → Except Stop (Word × State)} {s t : State} (h : checked l p s = .next t) :
    (l = true ∧ ∃ v u, p s = .ok (v, u) ∧ t = u.ok v) ∨ (l = true ∧ ∃ c, p s = .error (.data c) ∧ t = s.raiseData c) ∨
      (∃ c, t = s.raiseCmd c) := by
  cases l with
  | false => simp at h; exact .inr (.inr ⟨_, h.symm⟩)
  | true =>
    obtain ⟨v, u, hp, ht⟩ | ⟨c, hp, ht⟩ | ⟨c, -, ht⟩ := finish_next (r := p s) (by simpa using h)
    · exact .inl ⟨rfl, v, u, hp, ht⟩
    · exact .inr (.inl ⟨rfl, c, hp, ht⟩)
    · exact .inr (.inr ⟨c, ht⟩)

/-- Everything a command that is no observation can answer. -/
theorem command_next {l : Bool} {p : State → Except Stop (Word × State)} {s t : State} (h : command l p s = .next t) :
    (s.err = true ∧ t = s.abort) ∨ (s.err = false ∧ l = true ∧ ∃ v u, p s = .ok (v, u) ∧ t = u.ok v) ∨
      (s.err = false ∧ l = true ∧ ∃ c, p s = .error (.data c) ∧ t = s.raiseData c) ∨
      (s.err = false ∧ ∃ c, t = s.raiseCmd c) := by
  cases he : s.err with
  | true => rw [command_of_err he] at h; simp at h; exact .inl ⟨rfl, h.symm⟩
  | false =>
    rw [command_of_no_err he] at h
    obtain ⟨hl, h⟩ | ⟨hl, h⟩ | h := checked_next h
    · exact .inr (.inl ⟨rfl, hl, h⟩)
    · exact .inr (.inr (.inl ⟨rfl, hl, h⟩))
    · exact .inr (.inr (.inr ⟨rfl, h⟩))

/-- A checked procedure is never refused. -/
theorem checked_ne_refused (l : Bool) (p : State → Except Stop (Word × State)) (s : State) (f : Refusal) :
    checked l p s ≠ .refused f := by
  cases l <;> simp [finish_ne_refused]

/-- A command is never refused. -/
theorem command_ne_refused (l : Bool) (p : State → Except Stop (Word × State)) (s : State) (f : Refusal) :
    command l p s ≠ .refused f := by
  unfold command; split <;> simp [checked_ne_refused]

end Sys2Proof.Machine
end

