-- ==== Sys2Proof/Laws/Trees.lean ====
section
/-! SUPPORT. The tree descriptor parser: TREES is the abstract descriptor parse (43_tree_descriptor.md R181 to R197), it never meets an unwritten LENS cell, and it changes LENS only below HLIT + HDIST. -/

namespace Sys2Proof.Machine

/-! ### LENS -/

/-- Writing a LENS cell and reading one. -/
theorem Lens.cell_write (l : Lens) (i j : Nat) (v : Option (BitVec 4)) (hi : i < 320) :
    Lens.cell (Lens.write l i v) j = if j = i then v else Lens.cell l j := by
  unfold Lens.cell Lens.write
  by_cases h : j = i
  · subst h; simp [hi]
  · rw [if_neg h, Vector.getElem?_setIfInBounds_ne (fun e => h e.symm)]

/-- Filling n cells and reading one. -/
theorem Lens.cell_fill (v : Option (BitVec 4)) : ∀ (n : Nat) (l : Lens) (i j : Nat), i + n ≤ 320 →
    Lens.cell (Lens.fill l i v n) j = if i ≤ j ∧ j < i + n then v else Lens.cell l j := by
  intro n
  induction n with
  | zero => intro l i j _; rw [if_neg (by omega)]; rfl
  | succ n ih =>
    intro l i j h
    rw [Lens.fill, ih _ _ _ (by omega), Lens.cell_write _ _ _ _ (by omega)]
    by_cases h1 : j = i
    · rw [if_neg (by omega), if_pos h1, if_pos (by omega)]
    · by_cases h2 : i + 1 ≤ j ∧ j < i + 1 + n
      · rw [if_pos h2, if_pos (by omega)]
      · rw [if_neg h2, if_neg h1, if_neg (by omega)]

/-- A LENS range is read exactly when every cell of it is written, and gives their values. -/
theorem Lens.cells_eq_some {l : Lens} : ∀ {n off : Nat} {ls : List (BitVec 4)},
    Lens.cells l off n = some ls ↔ ls.length = n ∧ ∀ i (h : i < ls.length), Lens.cell l (off + i) = some ls[i] := by
  intro n
  induction n with
  | zero => intro off ls; cases ls <;> simp [Lens.cells]
  | succ n ih =>
    intro off ls
    unfold Lens.cells
    constructor
    · intro h
      cases hv : Lens.cell l off with
      | none => simp [hv] at h
      | some v =>
        cases hvs : Lens.cells l (off + 1) n with
        | none => simp [hv, hvs] at h
        | some vs =>
          simp only [hv, hvs, Option.some.injEq] at h
          subst h
          obtain ⟨h1, h2⟩ := ih.mp hvs
          refine ⟨by simp [h1], fun i hi => ?_⟩
          cases i with
          | zero => simpa using hv
          | succ i =>
            have := h2 i (by simpa using hi)
            simpa [show off + 1 + i = off + (i + 1) by omega] using this
    · rintro ⟨h1, h2⟩
      cases ls with
      | nil => simp at h1
      | cons v vs =>
        have hv : Lens.cell l off = some v := h2 0 (by simp)
        have hvs : Lens.cells l (off + 1) n = some vs := ih.mpr ⟨by simpa using h1, fun i hi => by
          have := h2 (i + 1) (by simpa using hi)
          simpa [show off + 1 + i = off + (i + 1) by omega] using this⟩
        simp [hv, hvs]

/-- LENS holds a list of lengths from cell 0 on. -/
def Lens.Holds (l : Lens) (ls : List (BitVec 4)) : Prop := ∀ i (h : i < ls.length), Lens.cell l i = some ls[i]

theorem Lens.Holds.cells {l : Lens} {ls : List (BitVec 4)} (h : Lens.Holds l ls) :
    Lens.cells l 0 ls.length = some ls :=
  Lens.cells_eq_some.mpr ⟨rfl, fun i hi => by rw [Nat.zero_add]; exact h i hi⟩

/-- A build over a range that LENS holds. -/
theorem Table.buildProc_eq {cap : Nat} (t : Table cap) {l : Lens} {off num : Nat} {ls : List (BitVec 4)}
    (h : Lens.cells l off num = some ls) : t.buildProc l off num = .ok (t.build ls) := by
  simp [Table.buildProc, h]

/-! ### The header -/

theorem Reader.readf_at {src : Source} {r : Reader} {n : Nat} (base : Nat) (h : r.inv src) (hn : n ≤ 24) :
    match src.readAt r.pos n with
    | .error c => r.readf src n base = .error (.data c)
    | .ok v => ∃ r', r.readf src n base = .ok (v + base, r') ∧ r'.inv src ∧ r'.pos = r.pos + n := by
  unfold Source.readAt
  by_cases hp : r.pos + n ≤ src.size
  · simp only [hp, if_true]; exact Reader.readf_ok base h hn hp
  · simp only [hp, if_false]; exact Reader.readf_eoi base h hn (by omega)

theorem Source.readAt_lt {src : Source} {p n v : Nat} (h : src.readAt p n = .ok v) : v < 2 ^ n := by
  unfold Source.readAt at h
  split at h
  · simp only [Except.ok.injEq] at h; rw [← h]; exact Source.fieldAt_lt src n p
  · simp at h

/-! ### The code-length-alphabet lengths -/

/-- Reading the code-length-alphabet lengths (43_tree_descriptor.md R183). -/
theorem readClLengths_spec {src : Source} : ∀ (order : List Nat) (l : Lens) (ls : List (BitVec 4)) (r : Reader),
    (∀ i ∈ order, i < 19) → ls.length = 19 → r.inv src → Lens.Holds l ls →
    match src.clLengthsAt order ls r.pos with
    | .error c => readClLengths src order l r = .error (.data c)
    | .ok (ls', p') => ∃ l' r', readClLengths src order l r = .ok (l', r') ∧ r'.inv src ∧ r'.pos = p' ∧
        Lens.Holds l' ls' ∧ ls'.length = 19 ∧ ∀ i, 19 ≤ i → Lens.cell l' i = Lens.cell l i := by
  intro order
  induction order with
  | nil => intro l ls r _ h19 hi hl; exact ⟨l, r, rfl, hi, rfl, hl, h19, fun _ _ => rfl⟩
  | cons i order ih =>
    intro l ls r ho h19 hi hl
    have hi19 : i < 19 := ho i (by simp)
    have hr := Reader.readf_at 0 hi (by omega : 3 ≤ 24)
    unfold Source.clLengthsAt readClLengths
    cases hv : src.readAt r.pos 3 with
    | error c => simp only [hv] at hr; simp [hr]
    | ok v =>
      simp only [hv] at hr
      obtain ⟨r', e, hi', hp'⟩ := hr
      have hl' : Lens.Holds (Lens.write l i (some (BitVec.ofNat 4 v))) (ls.set i (BitVec.ofNat 4 v)) := by
        intro j hj
        rw [Lens.cell_write _ _ _ _ (by omega), List.getElem_set]
        by_cases h : j = i
        · simp [h]
        · have : ¬ i = j := fun e => h e.symm
          simp only [h, this, if_false]
          exact hl j (by simpa using hj)
      have := ih _ _ r' (fun j hj => ho j (by simp [hj])) (by simpa using h19) hi' hl'
      rw [hp'] at this
      simp only [e, Nat.add_zero]
      cases hc : src.clLengthsAt order (ls.set i (BitVec.ofNat 4 v)) (r.pos + 3) with
      | error c => simp only [hc] at this ⊢; exact this
      | ok x =>
        obtain ⟨ls', p'⟩ := x
        simp only [hc] at this ⊢
        obtain ⟨l2, r2, h1, h2, h3, h4, h5, h6⟩ := this
        refine ⟨l2, r2, h1, h2, h3, h4, h5, fun j hj => ?_⟩
        rw [h6 j hj, Lens.cell_write _ _ _ _ (by omega), if_neg (by omega)]

/-! ### The sequence -/

/-- The counts of a built table as a function are those of its lengths. -/
theorem Table.countAt_build_fun {cap : Nat} (t : Table cap) {ls : List (BitVec 4)} (h : ls.length < 512) :
    (t.build ls).countAt = lengthCount ls := by
  funext l
  by_cases hl : l < 16
  · exact Table.countAt_build t h hl
  · have h1 : (t.build ls).countAt l = 0 := by
      unfold Table.countAt
      rw [Vector.getElem?_eq_none (by omega)]
      rfl
    rw [h1, lengthCount]
    split
    · rfl
    · refine (List.countP_eq_zero.mpr fun v _ => ?_).symm
      have : v.toNat < 16 := v.isLt
      simp; omega

/-- One repeat symbol (43_tree_descriptor.md R188, R189). -/
theorem readRepeat_spec {src : Source} {l : Lens} {seq : List (BitVec 4)} {r : Reader} (sym : Nat)
    (hi : r.inv src) (hl : Lens.Holds l seq) :
    match src.repeatAt sym seq r.pos with
    | .error c => readRepeat src sym seq.length l r = .error (.data c)
    | .ok (more, p') => ∃ v n r', readRepeat src sym seq.length l r = .ok (some v, n, r') ∧ r'.inv src ∧
        r'.pos = p' ∧ more = List.replicate n v ∧ 1 ≤ n := by
  unfold Source.repeatAt readRepeat
  by_cases h16 : sym = 16
  · simp only [h16, if_true]
    cases seq using List.reverseRecOn with
    | nil => simp
    | append_singleton seq v =>
      have hlast : Lens.cell l seq.length = some v := by
        have := hl seq.length (by simp)
        simpa using this
      have hr := Reader.readf_at 3 hi (by omega : 2 ≤ 24)
      simp only [List.getLast?_append, List.getLast?_singleton, Option.some_or, List.length_append,
        List.length_singleton, Nat.add_eq_zero_iff, one_ne_zero, and_false, if_false, Nat.add_sub_cancel, hlast]
      cases hv : src.readAt r.pos 2 with
      | error c => simp only [hv] at hr; simp [hr]
      | ok k =>
        simp only [hv] at hr
        obtain ⟨r', e, hi', hp'⟩ := hr
        exact ⟨v, k + 3, r', by simp [e], hi', hp', rfl, by omega⟩
  · simp only [h16, if_false]
    by_cases h17 : sym = 17
    · have hr := Reader.readf_at 3 hi (by omega : 3 ≤ 24)
      simp only [h17, if_true]
      cases hv : src.readAt r.pos 3 with
      | error c => simp only [hv] at hr; simp [hr]
      | ok k =>
        simp only [hv] at hr
        obtain ⟨r', e, hi', hp'⟩ := hr
        exact ⟨0, k + 3, r', by simp [e], hi', hp', rfl, by omega⟩
    · have hr := Reader.readf_at 11 hi (by omega : 7 ≤ 24)
      simp only [h17, if_false]
      cases hv : src.readAt r.pos 7 with
      | error c => simp only [hv] at hr; simp [hr]
      | ok k =>
        simp only [hv] at hr
        obtain ⟨r', e, hi', hp'⟩ := hr
        exact ⟨0, k + 11, r', by simp [e], hi', hp', rfl, by omega⟩

/-- The loop that fills the sequence is the abstract one (43_tree_descriptor.md R185 to R190). -/
theorem readSequence_spec {src : Source} (t : Table Config.cltCap) {cl : List (BitVec 4)} (hcl : cl.length = 19)
    {total : Nat} (htot : total ≤ 320) :
    ∀ (passes : Nat) (seq : List (BitVec 4)) (l : Lens) (r : Reader), r.inv src → Lens.Holds l seq →
      seq.length ≤ total → total ≤ seq.length + passes →
      match src.sequenceAt cl total passes seq r.pos with
      | .error c => readSequence src (t.build cl) total passes seq.length l r = .error (.data c)
      | .ok (seq', p') => ∃ l' r', readSequence src (t.build cl) total passes seq.length l r = .ok (l', r') ∧
          r'.inv src ∧ r'.pos = p' ∧ Lens.Holds l' seq' ∧ seq'.length = total ∧
          ∀ i, total ≤ i → Lens.cell l' i = Lens.cell l i := by
  intro passes
  induction passes with
  | zero =>
    intro seq l r hi hl h1 h2
    exact ⟨l, r, rfl, hi, rfl, hl, by omega, fun _ _ => rfl⟩
  | succ passes ih =>
    intro seq l r hi hl h1 h2
    unfold Source.sequenceAt readSequence
    by_cases hlt : seq.length < total
    · simp only [hlt, if_true]
      have h0 : (t.build cl).countAt 0 = 0 := by rw [Table.countAt_build_fun t (by omega)]; rfl
      have hd := Table.decodeProc_spec (t.build cl) h0 hi
      have hused := fun place p' => Source.decodeAt_used (t.build cl) (src := src) (p := r.pos) (place := place) (p' := p')
      rw [Table.countAt_build_fun t (by omega)] at hd hused
      cases hx : src.decodeAt (lengthCount cl) r.pos codeLengths with
      | error c => simp only [hx] at hd; simp [hd]
      | ok x =>
        obtain ⟨place, p1⟩ := x
        simp only [hx] at hd
        obtain ⟨r1, e1, hi1, hp1⟩ := hd
        have hplace : place < (sortedSyms cl).length := by
          rw [length_sortedSyms, ← Table.used_build t (by omega)]
          exact (hused place p1 hx).1
        have hsym : ((t.build cl).symAt place).toNat = (sortedSyms cl)[place]?.getD 0 := by
          rw [Table.symAt_build t (by rw [hcl]) (by decide) hplace]
          simp [hplace]
        simp only [e1, ← hsym]
        by_cases h15 : ((t.build cl).symAt place).toNat ≤ 15
        · simp only [h15, if_true]
          have hl' : Lens.Holds (Lens.write l seq.length (some (((t.build cl).symAt place).setWidth 4)))
              (seq ++ [BitVec.ofNat 4 ((t.build cl).symAt place).toNat]) := by
            intro j hj
            rw [Lens.cell_write _ _ _ _ (by omega)]
            by_cases h : j = seq.length
            · subst h
              simp
            · have hj' : j < seq.length := by simp at hj; omega
              rw [if_neg h, List.getElem_append_left hj']
              exact hl j hj'
          have := ih _ _ r1 hi1 hl' (by simp; omega) (by simp; omega)
          rw [hp1, List.length_append, List.length_singleton] at this
          split at this
          · simp_all
          · obtain ⟨l2, r2, g1, g2, g3, g4, g5, g6⟩ := this
            simp_all
            intro i hti
            rw [Lens.cell_write _ _ _ _ (by omega), if_neg (by omega)]
        · simp only [h15, if_false]
          have hr := readRepeat_spec ((t.build cl).symAt place).toNat hi1 hl
          rw [hp1] at hr
          cases hrep : src.repeatAt ((t.build cl).symAt place).toNat seq p1 with
          | error c => simp only [hrep] at hr; simp [hr]
          | ok y =>
            obtain ⟨more, p2⟩ := y
            simp only [hrep] at hr
            obtain ⟨v, n, r2, e2, hi2, hp2, hm, hn⟩ := hr
            subst hm
            simp only [e2, List.length_replicate]
            by_cases hov : seq.length + n > total
            · simp [hov]
            · simp only [hov, if_false]
              have hl' : Lens.Holds (Lens.fill l seq.length (some v) n) (seq ++ List.replicate n v) := by
                intro j hj
                rw [Lens.cell_fill _ _ _ _ _ (by omega)]
                by_cases h : j < seq.length
                · rw [if_neg (by omega), List.getElem_append_left h]
                  exact hl j h
                · have hj2 : j < seq.length + n := by simpa using hj
                  rw [if_pos (by omega), List.getElem_append_right (by omega)]
                  simp
              have := ih _ _ r2 hi2 hl' (by simp; omega) (by simp; omega)
              rw [hp2, List.length_append, List.length_replicate] at this
              cases hs : src.sequenceAt cl total passes (seq ++ List.replicate n v) p2 with
              | error c => simp only [hs] at this ⊢; exact this
              | ok z =>
                obtain ⟨seq', p'⟩ := z
                simp only [hs] at this ⊢
                obtain ⟨l2, r3, g1, g2, g3, g4, g5, g6⟩ := this
                refine ⟨l2, r3, g1, g2, g3, g4, g5, fun i hti => ?_⟩
                rw [g6 i hti, Lens.cell_fill _ _ _ _ _ (by omega), if_neg (by omega)]
    · simp only [hlt, if_false]
      exact ⟨l, r, rfl, hi, rfl, hl, by omega, fun _ _ => rfl⟩


/-! ### The whole descriptor -/

/-- What a parsed descriptor always is (43_tree_descriptor.md R182, R185, R190). -/
theorem Source.treesAt_bounds {src : Source} {p : Nat} {d : Parsed} (h : src.treesAt p = .ok d) :
    257 ≤ d.hlit ∧ d.hlit ≤ 288 ∧ 1 ≤ d.hdist ∧ d.hdist ≤ 32 ∧ 4 ≤ d.hclen ∧ d.hclen ≤ 19 := by
  unfold Source.treesAt at h
  split at h
  · simp at h
  · rename_i a ha
    split at h
    · simp at h
    · rename_i b hb
      split at h
      · simp at h
      · rename_i c hc
        have h1 := Source.readAt_lt ha
        have h2 := Source.readAt_lt hb
        have h3 := Source.readAt_lt hc
        split at h
        · simp at h
        · split at h
          · simp at h
          · simp only [Except.ok.injEq] at h
            subst h
            simp only
            omega

/-- The header fields as registers. -/
theorem readHeader_spec {src : Source} {r : Reader} (hi : r.inv src) :
    match src.readAt r.pos 5 with
    | .error c => readHeader src r = .error (.data c)
    | .ok a =>
      match src.readAt (r.pos + 5) 5 with
      | .error c => readHeader src r = .error (.data c)
      | .ok b =>
        match src.readAt (r.pos + 10) 4 with
        | .error c => readHeader src r = .error (.data c)
        | .ok c => ∃ r', readHeader src r =
            .ok (Descriptor.mk (BitVec.ofNat 9 (a + 257)) (BitVec.ofNat 6 (b + 1)) (BitVec.ofNat 5 (c + 4)), r') ∧
            r'.inv src ∧ r'.pos = r.pos + 14 := by
  have h1 := Reader.readf_at 257 hi (by omega : 5 ≤ 24)
  unfold readHeader
  cases ha : src.readAt r.pos 5 with
  | error c => simp only [ha] at h1; simp [h1]
  | ok a =>
    simp only [ha] at h1
    obtain ⟨r1, e1, i1, p1⟩ := h1
    have h2 := Reader.readf_at 1 i1 (by omega : 5 ≤ 24)
    rw [p1] at h2
    simp only [e1]
    cases hb : src.readAt (r.pos + 5) 5 with
    | error c => simp only [hb] at h2; simp [h2]
    | ok b =>
      simp only [hb] at h2
      obtain ⟨r2, e2, i2, p2⟩ := h2
      have h3 := Reader.readf_at 4 i2 (by omega : 4 ≤ 24)
      rw [p2, Nat.add_assoc] at h3
      simp only [e2]
      cases hc : src.readAt (r.pos + 10) 4 with
      | error c => simp only [hc] at h3; simp [h3]
      | ok c =>
        simp only [hc] at h3
        obtain ⟨r3, e3, i3, p3⟩ := h3
        exact ⟨r3, by simp [e3], i3, p3⟩

/-- TREES is the abstract descriptor parse (43_tree_descriptor.md R181 to R197). -/
theorem treesProc_spec {s : State} (hi : s.reader.inv s.src) :
    match s.src.treesAt s.reader.pos with
    | .error c => treesProc s = .error (.data c)
    | .ok d => ∃ l r,
        treesProc s = .ok (d.desc.pack,
          { s with reader := r, desc := d.desc, lens := l, clt := s.clt.build d.clLens,
                   lt := s.lt.build (d.lens.take d.hlit), dt := s.dt.build (d.lens.drop d.hlit) }) ∧
        r.inv s.src ∧ r.pos = d.pos ∧ Lens.Holds l d.lens ∧ d.clLens.length = 19 ∧
        d.lens.length = d.hlit + d.hdist ∧ ∀ i, d.hlit + d.hdist ≤ i → Lens.cell l i = Lens.cell s.lens i := by
  have hh := readHeader_spec hi
  unfold Source.treesAt treesProc
  cases ha : s.src.readAt s.reader.pos 5 with
  | error c => simp only [ha] at hh; simp [hh]
  | ok a =>
  have la := Source.readAt_lt ha
  simp only [ha] at hh
  cases hb : s.src.readAt (s.reader.pos + 5) 5 with
  | error c => simp only [hb] at hh; simp [hh]
  | ok b =>
  have lb := Source.readAt_lt hb
  simp only [hb] at hh
  cases hc : s.src.readAt (s.reader.pos + 10) 4 with
  | error c => simp only [hc] at hh; simp [hh]
  | ok c =>
  have lc := Source.readAt_lt hc
  simp only [hc] at hh
  obtain ⟨r1, e1, i1, p1⟩ := hh
  have n1 : (BitVec.ofNat 9 (a + 257)).toNat = a + 257 := by simp; omega
  have n2 : (BitVec.ofNat 6 (b + 1)).toNat = b + 1 := by simp; omega
  have n3 : (BitVec.ofNat 5 (c + 4)).toNat = c + 4 := by simp; omega
  have hclear : Lens.Holds (Lens.fill s.lens 0 (some 0) 19) (List.replicate 19 0) := by
    intro j hj
    rw [Lens.cell_fill _ _ _ _ _ (by omega), if_pos (by simpa using hj), List.getElem_replicate]
  have hcl := readClLengths_spec (src := s.src) (Config.clcidx.take (c + 4)) _ _ r1
    (fun j hj => (by decide : ∀ j ∈ Config.clcidx, j < 19) j (List.mem_of_mem_take hj)) (by simp) i1 hclear
  rw [p1] at hcl
  simp only [e1, n1, n2, n3]
  cases hx : s.src.clLengthsAt (Config.clcidx.take (c + 4)) (List.replicate 19 0) (s.reader.pos + 14) with
  | error c => simp only [hx] at hcl; simp only [hcl]
  | ok x =>
  obtain ⟨cl, q1⟩ := x
  simp only [hx] at hcl
  obtain ⟨l1, r2, e2, i2, p2, hl1, h19, keep1⟩ := hcl
  have hb1 : s.clt.buildProc l1 0 19 = .ok (s.clt.build cl) := Table.buildProc_eq _ (h19 ▸ hl1.cells)
  have hs := readSequence_spec s.clt h19 (total := a + 257 + (b + 1)) (by omega) (a + 257 + (b + 1)) [] l1 r2 i2
    (fun j hj => by simp at hj) (by simp) (by simp)
  rw [p2] at hs
  simp only [e2, hb1]
  cases hy : s.src.sequenceAt cl (a + 257 + (b + 1)) (a + 257 + (b + 1)) [] q1 with
  | error c => simp only [hy, List.length_nil] at hs; simp [hs]
  | ok y =>
  obtain ⟨seq, q2⟩ := y
  simp only [hy, List.length_nil] at hs
  obtain ⟨l2, r3, e3, i3, p3, hl2, hlen, keep2⟩ := hs
  have hb2 : s.lt.buildProc l2 0 (a + 257) = .ok (s.lt.build (seq.take (a + 257))) := by
    refine Table.buildProc_eq _ (Lens.cells_eq_some.mpr ⟨by simp; omega, fun j hj => ?_⟩)
    have hj' : j < seq.length := lt_of_lt_of_le hj (by simp)
    rw [Nat.zero_add, List.getElem_take]
    exact hl2 j hj'
  have hb3 : s.dt.buildProc l2 (a + 257) (b + 1) = .ok (s.dt.build (seq.drop (a + 257))) := by
    refine Table.buildProc_eq _ (Lens.cells_eq_some.mpr ⟨by simp; omega, fun j hj => ?_⟩)
    have hj' : a + 257 + j < seq.length := by simp at hj; omega
    rw [List.getElem_drop]
    exact hl2 _ hj'
  simp only [e3, hb2, hb3]
  refine ⟨l2, r3, rfl, i3, p3, hl2, h19, hlen, fun i hi => ?_⟩
  rw [keep2 i hi, keep1 i (by omega), Lens.cell_fill _ _ _ _ _ (by omega), if_neg (by omega)]

/-- A field that is read lies within the source. -/
theorem Source.readAt_size {src : Source} {p n v : Nat} (h : src.readAt p n = .ok v) : p + n ≤ src.size := by
  unfold Source.readAt at h; split at h
  · assumption
  · simp at h

/-- Each length of the code-length alphabet takes 3 bits. -/
theorem Source.clLengthsAt_pos {src : Source} : ∀ (order : List Nat) (ls ls' : List (BitVec 4)) (p p' : Nat),
    src.clLengthsAt order ls p = .ok (ls', p') → p' = p + 3 * order.length
  | [], ls, ls', p, p', h => by simp [Source.clLengthsAt] at h; simp [h.2]
  | i :: order, ls, ls', p, p', h => by
    simp only [Source.clLengthsAt] at h
    split at h
    · simp at h
    · have := Source.clLengthsAt_pos order _ _ _ _ h
      simp [this]; omega

/-- A repeat symbol takes its extra bits. -/
theorem Source.repeatAt_pos {src : Source} {sym p p' : Nat} {seq more : List (BitVec 4)}
    (h : src.repeatAt sym seq p = .ok (more, p')) : p < p' ∧ p' ≤ src.size := by
  unfold Source.repeatAt at h
  split at h
  · split at h
    · simp at h
    · split at h
      · simp at h
      · rename_i h2; simp at h; have := Source.readAt_size h2; omega
  · split at h <;> split at h
    · simp at h
    · rename_i h2; simp at h; have := Source.readAt_size h2; omega
    · simp at h
    · rename_i h2; simp at h; have := Source.readAt_size h2; omega

/-- A decoded symbol takes at least one bit. -/
theorem Source.decodeAt_pos {src : Source} {count} {p place p' : Nat} (h : src.decodeAt count p codeLengths = .ok (place, p')) :
    p < p' ∧ p' ≤ src.size := by
  obtain ⟨l, hl, _, _, hp, hs⟩ := Source.decodeAt_place h
  simp [codeLengths, List.mem_range'] at hl
  omega

/-- The sequence moves the position forward. -/
theorem Source.sequenceAt_pos {src : Source} {cl : List (BitVec 4)} {total : Nat} : ∀ (passes : Nat) (seq seq' : List (BitVec 4)) (p p' : Nat),
    src.sequenceAt cl total passes seq p = .ok (seq', p') → p ≤ p' ∧ (p' ≤ src.size ∨ p' = p)
  | 0, seq, seq', p, p', h => by simp [Source.sequenceAt] at h; omega
  | passes + 1, seq, seq', p, p', h => by
    simp only [Source.sequenceAt] at h
    split at h
    · split at h
      · simp at h
      · rename_i h1
        have h1 := Source.decodeAt_pos h1
        split at h
        · have := Source.sequenceAt_pos passes _ _ _ _ h; omega
        · split at h
          · simp at h
          · rename_i h2
            have h2 := Source.repeatAt_pos h2
            split at h
            · simp at h
            · have := Source.sequenceAt_pos passes _ _ _ _ h; omega
    · simp at h; omega

/-- The header fields of a descriptor, and that it ends past its 14 header bits. -/
theorem Source.treesAt_pos {src : Source} {p : Nat} {d : Parsed} (h : src.treesAt p = .ok d) :
    p + 14 < d.pos ∧ d.hlit = src.fieldAt p 5 + 257 ∧ d.hdist = src.fieldAt (p+5) 5 + 1 ∧ d.hclen = src.fieldAt (p+10) 4 + 4 := by
  unfold Source.treesAt at h
  split at h
  · simp at h
  · split at h
    · simp at h
    · split at h
      · simp at h
      · split at h
        · simp at h
        · split at h
          · simp at h
          · rename_i a ha _ b hb _ dd hd _ cl p1 hcl _ seq p2 hs
            have e1 := Source.clLengthsAt_pos _ _ _ _ _ hcl
            have e2 := Source.sequenceAt_pos _ _ _ _ _ hs
            have := Source.readAt_lt hd
            simp at h
            simp [Source.readAt] at ha hb hd
            subst h
            simp [Config.clcidx] at e1
            simp
            grind

/-- A range that cannot be read has an unwritten cell. -/
theorem Lens.exists_of_cells_eq_none {l : Lens} : ∀ {num off : Nat}, Lens.cells l off num = none → ∃ k, k < num ∧ Lens.cell l (off + k) = none
  | 0, off, h => by simp [Lens.cells] at h
  | num + 1, off, h => by
    simp only [Lens.cells] at h
    split at h
    · exact ⟨0, by omega, by simpa⟩
    · split at h
      · rename_i h2
        obtain ⟨k, hk, h3⟩ := Lens.exists_of_cells_eq_none h2
        exact ⟨k + 1, by omega, by rw [← h3]; congr 1; omega⟩
      · simp at h

end Sys2Proof.Machine
end

