-- ==== Sys2Proof/Laws/Exec.lean ====
section
/-! SUPPORT. What exec can do, said once: each command is its procedure between the common checks, and what each procedure changes when it returns. -/

namespace Sys2Proof.Machine

/-- The procedure of each command, behind the common checks. -/
def procOf : Instr → State → Except Stop (Word × State)
  | .getbit => readField 1 0
  | .readbits n base => readbitsProc n base
  | .align => fun s => .ok (0, { s with reader := s.reader.align })
  | .build tbl off num => buildTableProc tbl off.toNat num.toNat
  | .decode tbl => decodeTableProc tbl
  | .trees => treesProc
  | .wrlens idx val => fun s => .ok (0, { s with lens := Lens.write s.lens idx.toNat (some val) })
  | .rdlens idx => rdlensProc idx.toNat
  | .rdtab tbl part idx => rdtabProc tbl part idx.toNat
  | .rdreg reg => fun s => .ok (s.reg reg, s)

/-- Every command is its procedure between the common checks (60_exceptions.md R233). -/
theorem exec_eq (i : Instr) (s : State) :
    exec i s = if i.isObservation = true ∨ s.err = false then checked i.wellFormed (procOf i) s else .next s.abort := by
  cases he : s.err with
  | false =>
    cases i <;>
      simp [exec, execGetbit, execReadbits, execAlign, execBuild, execDecode, execTrees, execWrlens, execRdlens,
        execRdtab, execRdreg, observe_eq, command_of_no_err he, procOf]
  | true =>
    cases i <;>
      simp [exec, execGetbit, execReadbits, execAlign, execBuild, execDecode, execTrees, execWrlens, execRdlens,
        execRdtab, execRdreg, observe_eq, command_of_err he, procOf, Instr.isObservation]

/-- Everything a command can answer when it gives a next state. -/
theorem exec_next {i : Instr} {s t : State} (h : exec i s = .next t) :
    (i.isObservation = false ∧ s.err = true ∧ t = s.abort) ∨
    ((i.isObservation = true ∨ s.err = false) ∧
      ((i.wellFormed = true ∧ ∃ v u, procOf i s = .ok (v, u) ∧ t = u.ok v) ∨
        (i.wellFormed = true ∧ ∃ c, procOf i s = .error (.data c) ∧ t = s.raiseData c) ∨ ∃ c, t = s.raiseCmd c)) := by
  rw [exec_eq] at h
  split at h
  · rename_i ho; exact .inr ⟨ho, checked_next h⟩
  · rename_i ho
    simp only [not_or, Bool.not_eq_true, Bool.not_eq_false] at ho
    simp only [Host.Outcome.next.injEq] at h
    exact .inl ⟨ho.1, ho.2, h.symm⟩

/-- A field read answers with a changed reader alone. -/
theorem readField_ok {n base : Nat} {s u : State} {v : Word} (h : readField n base s = .ok (v, u)) :
    u = { s with reader := u.reader } := by
  unfold readField at h
  split at h
  · simp at h
  · simp only [Except.ok.injEq, Prod.mk.injEq] at h
    rw [← h.2]

/-- The state `u` that a procedure of `i` may leave from `s`: the reader for the consuming commands and ALIGN, one table for BUILD,
LENS for WRLENS, all the working state for TREES, and the draw counter for RDTAB. -/
def procKeeps (i : Instr) (s u : State) : Prop :=
  match i with
  | .getbit | .readbits _ _ | .align | .decode _ => u = { s with reader := u.reader }
  | .build tbl _ _ => u = s.setTable tbl (u.table tbl) ∨ tbl.writable = false
  | .trees => u = { s with reader := u.reader, desc := u.desc, lens := u.lens, lt := u.lt, dt := u.dt, clt := u.clt }
  | .wrlens _ _ => u = { s with lens := u.lens }
  | .rdlens _ | .rdreg _ => u = s
  | .rdtab _ _ _ => u = { s with draws := u.draws }

/-- What each procedure may change when it returns. -/
theorem procOf_ok {i : Instr} {s u : State} {v : Word} (h : procOf i s = .ok (v, u)) : procKeeps i s u := by
  cases i with
  | getbit => exact readField_ok h
  | readbits n base =>
    simp only [procOf, readbitsProc] at h
    split at h
    · simp only [Except.ok.injEq, Prod.mk.injEq] at h
      simp [procKeeps, ← h.2]
    · exact readField_ok h
  | align =>
    simp only [procOf, Except.ok.injEq, Prod.mk.injEq] at h
    simp [procKeeps, ← h.2]
  | build tbl off num =>
    simp only [procOf, buildTableProc] at h
    split at h
    · simp at h
    · simp only [Except.ok.injEq, Prod.mk.injEq] at h
      cases hw : tbl.writable with
      | false => exact .inr hw
      | true => exact .inl (by rw [← h.2, State.table_setTable_self _ _ _ hw])
  | decode tbl =>
    simp only [procOf, decodeTableProc] at h
    split at h
    · split at h
      · simp at h
      · simp only [Except.ok.injEq, Prod.mk.injEq] at h
        simp [procKeeps, ← h.2]
    · simp at h
  | trees =>
    simp only [procOf, treesProc] at h
    iterate 6
      split at h
      · simp at h
    simp only [Except.ok.injEq, Prod.mk.injEq] at h
    simp [procKeeps, ← h.2]
  | wrlens idx val =>
    simp only [procOf, Except.ok.injEq, Prod.mk.injEq] at h
    simp [procKeeps, ← h.2]
  | rdlens idx =>
    simp only [procOf, rdlensProc] at h
    split at h
    · simp at h
    · simp only [Except.ok.injEq, Prod.mk.injEq] at h
      simp [procKeeps, h.2]
  | rdtab tbl part idx =>
    simp only [procOf, rdtabProc] at h
    split at h
    · cases part with
      | count =>
        simp only [Except.ok.injEq, Prod.mk.injEq] at h
        simp [procKeeps, ← h.2]
      | sym =>
        simp only at h
        split at h <;> simp only [Except.ok.injEq, Prod.mk.injEq] at h <;> simp [procKeeps, ← h.2]
    · simp at h
  | rdreg reg =>
    simp only [procOf, Except.ok.injEq, Prod.mk.injEq] at h
    simp [procKeeps, h.2]

/-- What no procedure changes: the source, ERR, ERR_CAUSE and the host's moves. -/
theorem procOf_ok_keeps {i : Instr} {s u : State} {v : Word} (hw : i.wellFormed = true) (h : procOf i s = .ok (v, u)) :
    u.src = s.src ∧ u.err = s.err ∧ u.errCause = s.errCause ∧ u.port = s.port := by
  have hk := procOf_ok h
  cases i with
  | build tbl off num =>
    rcases hk with hk | hk
    · rw [hk]; simp
    · simp [Instr.wellFormed, hk] at hw
  | _ => simp only [procKeeps] at hk; rw [hk]; exact ⟨rfl, rfl, rfl, rfl⟩

/-- An observation's procedure raises no DataError. -/
theorem procOf_observation_no_data {i : Instr} {s : State} {c : DataCause} (ho : i.isObservation = true) :
    procOf i s ≠ .error (.data c) := by
  cases i <;> simp [Instr.isObservation] at ho
  · simp only [procOf, rdlensProc]; split <;> simp
  · rename_i tbl part idx
    simp only [procOf, rdtabProc]
    split
    · cases part
      · simp
      · simp only; split <;> simp
    · simp
  · simp [procOf]

/-- In working order, `count[0]` of a valid table is 0. -/
theorem State.countAt_zero_of_working {s : State} (h : s.working) (tbl : Tbl) (hv : (s.table tbl).valid = true) : (s.table tbl).countAt 0 = 0 := by
  cases tbl
  · exact (h.2.2.1 hv).1
  · exact (h.2.2.2.1 hv).1
  · exact (h.2.2.2.2 hv).1
  · show Table.flt.countAt 0 = 0; decide
  · show Table.fdt.countAt 0 = 0; decide

/-- A procedure that returns keeps the working state in order, and the position never moves back. -/
theorem procOf_working {i : Instr} {s u : State} {v : Word} (hw : i.wellFormed = true) (h : procOf i s = .ok (v, u)) (hs : s.working) :
    u.working ∧ s.reader.pos ≤ u.reader.pos := by
  have hi := hs.1
  cases i with
  | getbit =>
    simp only [procOf, readField] at h
    by_cases hp : s.reader.pos + 1 ≤ s.src.size
    · obtain ⟨r', h1, h2, h3⟩ := Reader.readf_ok 0 hi (by omega) hp
      simp [h1] at h
      rw [← h.2]
      refine ⟨⟨h2, hs.2⟩, ?_⟩
      simp [h3]
    · rw [Reader.readf_eoi 0 hi (by omega) (by omega)] at h; simp at h
  | readbits n base =>
    simp only [procOf, readbitsProc, readField] at h
    split at h
    · simp at h; rw [← h.2]; exact ⟨hs, le_rfl⟩
    · have hw : n.toNat ≤ 16 := by simpa [Instr.wellFormed] using hw
      by_cases hp : s.reader.pos + n.toNat ≤ s.src.size
      · obtain ⟨r', h1, h2, h3⟩ := Reader.readf_ok base.toNat hi (by omega) hp
        simp [h1] at h
        rw [← h.2]
        refine ⟨⟨h2, hs.2⟩, ?_⟩
        simp [h3]
      · rw [Reader.readf_eoi base.toNat hi (by omega) (by omega)] at h; simp at h
  | align =>
    simp [procOf] at h
    rw [← h.2]
    obtain ⟨a, b⟩ := Reader.align_inv hi
    exact ⟨⟨a, hs.2⟩, by simp [b]; omega⟩
  | build tbl off num =>
    have hk := procOf_ok h
    simp [Instr.wellFormed] at hw
    simp only [procOf, buildTableProc, Table.buildProc] at h
    cases hc : Lens.cells s.lens off.toNat num.toNat with
    | none => simp [hc] at h
    | some ls =>
      simp [hc] at h
      have hl := (Lens.cells_eq_some.1 hc).1
      rw [← h.2]
      cases tbl <;> simp [Tbl.writable, Tbl.cap] at hw <;> simp [State.setTable, State.working, State.table] 
      · exact ⟨hi, hs.2.1, fun _ => Table.build_ok _ (by omega) (by decide), hs.2.2.2⟩
      · exact ⟨hi, hs.2.1, hs.2.2.1, fun _ => Table.build_ok _ (by omega) (by decide), hs.2.2.2.2⟩
      · exact ⟨hi, hs.2.1, hs.2.2.1, hs.2.2.2.1, fun _ => Table.build_ok _ (by omega) (by decide)⟩
  | decode tbl =>
    simp only [procOf, decodeTableProc] at h
    split at h
    · rename_i hv
      have hd := Table.decodeProc_spec (s.table tbl) (State.countAt_zero_of_working hs tbl hv) hi
      split at hd
      · simp [hd] at h
      · obtain ⟨r', h1, h2, h3⟩ := hd
        rename_i e
        have := (Source.decodeAt_used _ e).2
        simp [h1] at h
        rw [← h.2]
        refine ⟨⟨h2, hs.2⟩, ?_⟩
        simp [h3]; omega
    · simp at h
  | trees =>
    have ht := treesProc_spec hi
    simp only [procOf] at h
    split at ht
    · simp [ht] at h
    · obtain ⟨l, r, h1, h2, h3, h4, h5, h6, h7⟩ := ht
      rename_i d e
      have hp := Source.treesAt_pos e
      have hb := Source.treesAt_bounds e
      rw [h1] at h
      simp at h
      rw [← h.2]
      refine ⟨⟨h2, .inr ?_, fun _ => Table.build_ok _ ?_ (by decide), fun _ => Table.build_ok _ ?_ (by decide), fun _ => Table.build_ok _ ?_ (by decide)⟩, ?_⟩
      · simp [Parsed.desc]; omega
      · show _ ≤ 288; simp; omega
      · show _ ≤ 32; simp; omega
      · show _ ≤ 19; omega
      · simp; omega
  | wrlens idx val => simp [procOf] at h; rw [← h.2]; exact ⟨hs, le_rfl⟩
  | rdlens idx => rw [procOf_ok h]; exact ⟨hs, le_rfl⟩
  | rdtab tbl part idx => rw [procOf_ok h]; exact ⟨hs, le_rfl⟩
  | rdreg r => rw [procOf_ok h]; exact ⟨hs, le_rfl⟩

/-- The one fault of a procedure is the read of an unwritten LENS cell, by BUILD or RDLENS. -/
theorem procOf_fault {i : Instr} {s : State} {f : Fault} (hi : i = .trees → s.reader.inv s.src) (h : procOf i s = .error (.fault f)) :
   f = .unwrittenLens ∧ ((∃ tbl off num, i = .build tbl off num ∧ ∃ k, k < num.toNat ∧ Lens.cell s.lens (off.toNat + k) = none) ∨
        ∃ idx, i = .rdlens idx ∧ Lens.cell s.lens idx.toNat = none) := by
  cases i with
  | getbit =>
    simp only [procOf, readField] at h
    split at h
    · rename_i h2; simp at h; subst h; exact absurd h2 Reader.readf_ne_fault
    · simp at h
  | readbits n base =>
    simp only [procOf, readbitsProc, readField] at h
    split at h
    · simp at h
    · split at h
      · rename_i h2; simp at h; subst h; exact absurd h2 Reader.readf_ne_fault
      · simp at h
  | align => simp [procOf] at h
  | build tbl off num =>
    simp only [procOf, buildTableProc, Table.buildProc] at h
    cases hc : Lens.cells s.lens off.toNat num.toNat with
    | none => exact ⟨by cases f; rfl, .inl ⟨tbl, off, num, rfl, Lens.exists_of_cells_eq_none hc⟩⟩
    | some ls => simp [hc] at h
  | decode tbl =>
    simp only [procOf, decodeTableProc, Table.decodeProc] at h
    split at h
    · split at h
      · rename_i h2; simp at h; subst h; exact absurd h2 (Table.decodeLoop_ne_fault _ _ _ _)
      · simp at h
    · simp at h
  | trees =>
    have ht := treesProc_spec (hi rfl)
    simp only [procOf] at h
    split at ht
    · simp [ht] at h
    · obtain ⟨l, r, h1, _⟩ := ht; simp [h1] at h
  | wrlens idx val => simp [procOf] at h
  | rdlens idx =>
    simp only [procOf, rdlensProc] at h
    split at h
    · rename_i h2; exact ⟨by cases f; rfl, .inr ⟨idx, rfl, h2⟩⟩
    · simp at h
  | rdtab tbl part idx =>
    simp only [procOf, rdtabProc] at h
    split at h
    · split at h
      · simp at h
      · split at h <;> simp at h
    · simp at h
  | rdreg r => simp [procOf] at h

end Sys2Proof.Machine
end

