-- ==== Sys2Proof/Laws/Memory.lean ====
section
/-! SUPPORT. The source space: the canonical form is what every launch builds and what reset holds, and a byte reads back. DBR itself never writes memory (00_scope.md R12). -/

namespace Sys2Proof.Machine

/-- Every cell of the memory built from address `a` stands at `a` or later, before the end of the bytes. -/
theorem Memory.mem_ofBytes {bytes : List Byte} : ∀ {a : Nat} {c : Host.Cell}, c ∈ Memory.ofBytes a bytes →
    a ≤ c.1 ∧ c.1 < a + bytes.length ∧ c.2 ≠ Memory.unlisted := by
  induction bytes with
  | nil => intro a c h; simp [Memory.ofBytes] at h
  | cons b rest ih =>
    intro a c h
    unfold Memory.ofBytes at h
    split at h
    · obtain ⟨h1, h2, h3⟩ := ih h
      exact ⟨by omega, by simp; omega, h3⟩
    · rcases List.mem_cons.mp h with rfl | h
      · exact ⟨le_refl a, by simp, by assumption⟩
      · obtain ⟨h1, h2, h3⟩ := ih h
        exact ⟨by omega, by simp; omega, h3⟩

/-- Building a memory from bytes gives the canonical form. -/
theorem Memory.ofBytes_wf (bytes : List Byte) : ∀ a, Memory.wf (Memory.ofBytes a bytes) := by
  induction bytes with
  | nil => intro a; exact ⟨List.Pairwise.nil, by simp [Memory.ofBytes]⟩
  | cons b rest ih =>
    intro a
    refine ⟨?_, fun c hc => (Memory.mem_ofBytes hc).2.2⟩
    unfold Memory.ofBytes
    split
    · exact (ih (a + 1)).1
    · refine List.pairwise_cons.mpr ⟨fun c hc => ?_, (ih (a + 1)).1⟩
      have := (Memory.mem_ofBytes hc).1
      simp; omega

/-- A memory with no cell at an address reads as an unlisted address does. -/
theorem Memory.read_of_not_mem {m : Memory} {a : Nat} (h : ∀ c ∈ m, c.1 ≠ a) : Memory.read m a = Memory.unlisted := by
  induction m with
  | nil => rfl
  | cons c rest ih =>
    have h1 : c.1 ≠ a := h c (by simp)
    simp only [Memory.read, h1, if_false]
    exact ih fun d hd => h d (by simp [hd])

/-- Every byte reads back from the memory built of it. -/
theorem Memory.read_ofBytes (bytes : List Byte) : ∀ (a i : Nat) (h : i < bytes.length),
    Memory.read (Memory.ofBytes a bytes) (a + i) = bytes[i] := by
  induction bytes with
  | nil => intro a i h; simp at h
  | cons b rest ih =>
    intro a i h
    unfold Memory.ofBytes
    cases i with
    | zero =>
      split
      · rw [Memory.read_of_not_mem fun c hc => by have := (Memory.mem_ofBytes hc).1; omega]
        simp_all
      · simp [Memory.read]
    | succ i =>
      have e : a + (i + 1) = a + 1 + i := by omega
      split
      · rw [e, ih (a + 1) i (by simpa using h)]; simp
      · have : ¬ a = a + (i + 1) := by omega
        simp only [Memory.read, this, if_false]
        rw [e, ih (a + 1) i (by simpa using h)]; simp

/-- A launched source is in canonical form. -/
theorem Source.ofBytes_wf {bytes : List Byte} (h : bytes.length < 2 ^ 32) : (Source.ofBytes bytes).wf := by
  refine ⟨Memory.ofBytes_wf bytes 0, fun c hc => ?_⟩
  have := (Memory.mem_ofBytes hc).2.1
  simp only [Source.ofBytes, BitVec.toNat_ofNat, Nat.mod_eq_of_lt h]
  omega

/-- A launched source has the bytes the host fixed. -/
theorem Source.read_ofBytes (bytes : List Byte) (i : Nat) (h : i < bytes.length) :
    (Source.ofBytes bytes).read i = bytes[i] := by
  have h := Memory.read_ofBytes bytes 0 i h
  rwa [Nat.zero_add] at h

/-- Reset holds the canonical memory. -/
theorem State.reset_src_wf : State.reset.src.wf := by
  refine ⟨⟨by simp [State.reset], by simp [State.reset]⟩, by simp [State.reset]⟩

end Sys2Proof.Machine
end

