-- ==== Sys2Proof/Laws/PerInstr.lean ====
section
/-! SUPPORT. What holds of each command as syntax, one lemma per constructor: the OP number its word carries (30_encoding.md R78). -/

namespace Sys2Proof

/-- The OP number of a command's row in the opcode map, 30_encoding.md R78. -/
def Instr.op : Instr → Nat
  | .getbit => 0x1
  | .readbits _ _ => 0x2
  | .align => 0x3
  | .build _ _ _ => 0x4
  | .decode _ => 0x5
  | .trees => 0x6
  | .wrlens _ _ => 0x7
  | .rdlens _ => 0x8
  | .rdtab _ _ _ => 0x9
  | .rdreg _ => 0xA

/-- The top field of a concatenation of a 4-bit OP and 28 more bits is the OP. -/
theorem field_op (op : BitVec 4) (rest : BitVec 28) : field (op ++ rest) 28 4 = op := by
  unfold field
  ext k hk
  simp only [BitVec.getElem_extractLsb']
  rw [BitVec.getLsbD_append]
  simp [hk]

/-- The word of a command carries its row's OP in bits 31:28. -/
def Laws.Opcode.Statement (i : Instr) : Prop := (field (encode i) 28 4).toNat = i.op

theorem Laws.Opcode.getbit : Laws.Opcode.Statement .getbit := congrArg BitVec.toNat (field_op 0x1 _)

theorem Laws.Opcode.readbits (n : BitVec 5) (base : BitVec 16) : Laws.Opcode.Statement (.readbits n base) :=
  congrArg BitVec.toNat (field_op 0x2 _)

theorem Laws.Opcode.align : Laws.Opcode.Statement .align := congrArg BitVec.toNat (field_op 0x3 _)

theorem Laws.Opcode.build (tbl : Tbl) (off num : BitVec 9) : Laws.Opcode.Statement (.build tbl off num) :=
  congrArg BitVec.toNat (field_op 0x4 _)

theorem Laws.Opcode.decode (tbl : Tbl) : Laws.Opcode.Statement (.decode tbl) :=
  congrArg BitVec.toNat (field_op 0x5 _)

theorem Laws.Opcode.trees : Laws.Opcode.Statement .trees := congrArg BitVec.toNat (field_op 0x6 _)

theorem Laws.Opcode.wrlens (idx : BitVec 9) (val : BitVec 4) : Laws.Opcode.Statement (.wrlens idx val) :=
  congrArg BitVec.toNat (field_op 0x7 _)

theorem Laws.Opcode.rdlens (idx : BitVec 9) : Laws.Opcode.Statement (.rdlens idx) :=
  congrArg BitVec.toNat (field_op 0x8 _)

theorem Laws.Opcode.rdtab (tbl : Tbl) (part : Part) (idx : BitVec 9) :
    Laws.Opcode.Statement (.rdtab tbl part idx) := congrArg BitVec.toNat (field_op 0x9 _)

theorem Laws.Opcode.rdreg (reg : Reg) : Laws.Opcode.Statement (.rdreg reg) :=
  congrArg BitVec.toNat (field_op 0xA _)

end Sys2Proof
end

