-- ==== Sys2Proof/Tests/Slice0.lean ====
section
/-! SUPPORT. Tests of the model. Expected values come from spec/95_test_vectors.md (cited by its vector names), spec/30_encoding.md (R78, R82 to R84) and the rules named; each test runs one command. After the tests stand the witnesses: for each statement of Certificates/Slice0 with hypotheses, states that meet them. -/

namespace Sys2Proof.Tests

open Sys2Proof Sys2Proof.Machine

/-! ### Helpers -/

/-- The state right after reset on a source (95_test_vectors.md, section 0). -/
def start (bytes : List Byte) : State := { State.reset with src := Source.ofBytes bytes }

/-- The command answered OK with this result, and left this reader. -/
def answers (o : Host.Outcome State Fault Refusal) (v : Word) (si : Word) (tag : Word) (bc : BitVec 6) : Bool :=
  match o with
  | .next t => decide (t.response = some { status := .ok, result := v } ∧ t.result = v ∧
      t.reader = { si := si, tag := tag, bc := bc } ∧ t.err = false)
  | _ => false

/-- The command ended with this STATUS and this ERR_CAUSE, with ERR = 1. -/
def fails (o : Host.Outcome State Fault Refusal) (st : Status) (cause : BitVec 4) : Bool :=
  match o with
  | .next t => decide (t.response.map (·.status) = some st ∧ t.err = true ∧ t.errCause = cause)
  | _ => false

/-- The state at the end of an outcome that has one. -/
def afterwards (o : Host.Outcome State Fault Refusal) : Option State :=
  match o with
  | .next t => some t
  | _ => none

/-- LENS with the given lengths from an index on and every other cell unwritten. -/
def lensWith (off : Nat) (ls : List (BitVec 4)) : Lens :=
  Vector.ofFn fun i => if i.val < off then none else ls[i.val - off]?

/-- The lengths of vector B1 and program P5. -/
def p5Lengths : List (BitVec 4) := [3, 3, 3, 3, 3, 2, 4, 4]

/-- A table of 19 cells with the two 15-bit codes of vector D5. -/
def twoLongCodes : Table Config.cltCap := (Table.unbuilt Config.cltCap).build [15, 15]

/-- A table of 32 cells with no code, as BUILD DT, 0, 0 leaves it (vector B2). -/
def noCodes : Table Config.dtCap := (Table.unbuilt Config.dtCap).build []

/-- A table of 32 cells with the one 1-bit code of vector B9. -/
def oneCode : Table Config.dtCap := (Table.unbuilt Config.dtCap).build [0, 1]

/-- S1 after BFINAL: one bit of `03 00` is consumed, 15 are buffered (95_test_vectors.md, S1 row 1). -/
def s1AfterBfinal : State := { start [0x03, 0x00] with reader := { si := 2, tag := 1, bc := 15 } }

/-! ### Field legality: each check refuses an ill-formed command (30_encoding.md R78) -/

theorem test_wellFormed_readbits : (Instr.readbits 17 0).wellFormed = false := by decide
theorem test_wellFormed_build_constant : (Instr.build .flt 0 8).wellFormed = false := by decide
theorem test_wellFormed_build_lt_num : (Instr.build .lt 0 289).wellFormed = false := by decide
theorem test_wellFormed_build_dt_num : (Instr.build .dt 0 33).wellFormed = false := by decide
theorem test_wellFormed_build_clt_num : (Instr.build .clt 0 20).wellFormed = false := by decide
theorem test_wellFormed_build_range : (Instr.build .lt 300 21).wellFormed = false := by decide
theorem test_wellFormed_wrlens : (Instr.wrlens 320 0).wellFormed = false := by decide
theorem test_wellFormed_rdlens : (Instr.rdlens 320).wellFormed = false := by decide
theorem test_wellFormed_rdtab_count : (Instr.rdtab .flt .count 16).wellFormed = false := by decide
theorem test_wellFormed_rdtab_fdt : (Instr.rdtab .fdt .sym 32).wellFormed = false := by decide
theorem test_wellFormed_rdtab_clt : (Instr.rdtab .clt .sym 19).wellFormed = false := by decide

/-! ### Decoding: words written out bit by bit from 30_encoding.md R73 to R77, field by field, high bits first -/

theorem test_decode_getbit : decodeWord 0b0001_0000000000000000000000000000 = .ok .getbit := by decide
theorem test_decode_readbits :
    decodeWord 0b0010_0000000_00101_0000000100000001 = .ok (.readbits 5 257) := by decide
theorem test_decode_readbits_max :
    decodeWord 0b0010_0000000_10000_1111111111111111 = .ok (.readbits 16 65535) := by decide
theorem test_decode_align : decodeWord 0b0011_0000000000000000000000000000 = .ok .align := by decide
theorem test_decode_build :
    decodeWord 0b0100_0_001_0_00000_100100000_000100000 = .ok (.build .dt 288 32) := by decide
theorem test_decode_decode : decodeWord 0b0101_0_100_000000000000000000000000 = .ok (.decode .fdt) := by decide
theorem test_decode_trees : decodeWord 0b0110_0000000000000000000000000000 = .ok .trees := by decide
theorem test_decode_wrlens : decodeWord 0b0111_000_100111111_000000000000_1111 = .ok (.wrlens 319 15) := by decide
theorem test_decode_rdlens : decodeWord 0b1000_000_000000101_000000000000_0000 = .ok (.rdlens 5) := by decide
theorem test_decode_rdtab :
    decodeWord 0b1001_0_000_1_00000000000000_100011111 = .ok (.rdtab .lt .sym 287) := by decide
theorem test_decode_rdtab_count :
    decodeWord 0b1001_0_011_0_00000000000000_000000111 = .ok (.rdtab .flt .count 7) := by decide
theorem test_decode_rdreg : decodeWord 0b1010_000000000000000000000000_1000 = .ok (.rdreg .srcLen) := by decide

/-- RSEL 0 to 8 (44_observation.md R214). -/
theorem test_decode_rdreg_all :
    (List.range 9).map (fun k => (decodeWord (0xA0000000 + BitVec.ofNat 32 k)).toOption) =
      [Reg.si, .bc, .tag, .err, .errCause, .hlit, .hdist, .hclen, .srcLen].map (fun r => some (.rdreg r)) := by decide

/-- TSEL 0 to 4 (30_encoding.md R77). -/
theorem test_decode_tables :
    [0x50000000#32, 0x51000000, 0x52000000, 0x53000000, 0x54000000].map (fun w => (decodeWord w).toOption) =
      [Tbl.lt, .dt, .clt, .flt, .fdt].map (fun t => some (.decode t)) := by decide

/-- Vectors E2, R11: unlisted OPs and must-be-zero bits. -/
theorem test_reject_opcodes :
    [0x00000000#32, 0xFFFFFFFF, 0xB0000000, 0xC0000000, 0xD0000000, 0xE0000000, 0xF0000000].map decodeWord =
      List.replicate 7 (.error .reservedOpcode) := by decide

/-- Vectors E2, R11, B5, B6, D2, O3, O4: a 1 in a must-be-zero bit of every format. -/
theorem test_reject_mustBeZero :
    [0x10000001#32, 0x30000100, 0x60800000, 0x58000000, 0x20F00000, 0x20200000, 0x48000000, 0x40040000, 0x70000010,
        0x72000000, 0x53000001, 0x93400000, 0x80000001].map decodeWord =
      List.replicate 13 (.error .mustBeZero) := by decide

/-- Vectors B5, D2, O3: reserved TSEL values. -/
theorem test_reject_tables :
    [0x55000000#32, 0x95000000, 0x47000000].map decodeWord = List.replicate 3 (.error .reservedTable) := by decide

/-- Vector O1: RSEL 9. -/
theorem test_reject_register : decodeWord 0xA0000009 = .error .reservedRegister := by decide

/-- Vectors R10, B5, B6, O3, O4: fields out of range; BUILD names FLT or FDT. -/
theorem test_reject_fields :
    [0x20110000#32, 0x40000121, 0x41000021, 0x42000014, 0x43000008, 0x44000000, 0x40025815, 0x71400000, 0x93000010,
        0x94800020, 0x92800013, 0x81400000].map decodeWord =
      List.replicate 12 (.error .fieldRange) := by decide

/-- The numbering of the opcode table: one 32-bit word. -/
theorem test_decodeTableWord : decodeTableWord 32 0x53000000 = some (.decode .flt) := by decide

/-! ### The assembler (30_encoding.md R82, R83) -/

theorem test_assemble_build : assembleWord "BUILD LT, 0, 8  ; -> 8" = some 0x40000008 := by decide
theorem test_assemble_rdtab : assembleWord "RDTAB LT, sym, 0x11F" = some 0x9080011F := by decide
theorem test_assemble_bfinal : assembleWord "BFINAL          ; 0x10000000 -> 1" = some 0x10000000 := by decide
/-- The model's choice (assumption 17): a number wider than its field is no line of the syntax. -/
theorem test_assemble_out_of_range : assembleWord "WRLENS 0, 16" = none := by decide

/-! ### The bitstream reader -/

/-- S1 row 1. -/
theorem test_getbit_s1 : answers (exec .getbit (start [0x03, 0x00])) 1 2 1 15 = true := by decide
/-- Vector R1: EOI on the first bit. -/
theorem test_getbit_eoi : fails (exec .getbit (start [])) .dataError 1 = true := by decide
/-- Vector R4: a 16-bit little-endian field. -/
theorem test_readbits_r4 :
    answers (exec (.readbits 16 0) (start [0x34, 0x12, 0x56, 0x78])) 0x1234 3 0x56 8 = true := by decide
/-- Vector R6: the largest result, with no wrap. -/
theorem test_readbits_r6 : answers (exec (.readbits 16 65535) (start [0xff, 0xff])) 0x1FFFE 2 0 0 = true := by decide
/-- Vector R2: n = 0 needs no source and does not refill. -/
theorem test_readbits_zero : answers (exec (.readbits 0 65535) (start [])) 65535 0 0 0 = true := by decide
/-- S2 row 3: ALIGN gives back the three look-ahead bytes. -/
theorem test_align_s2 :
    answers (exec .align { start [0x01, 0x05, 0x00, 0xfa, 0xff] with
      reader := { si := 4, tag := 0x1F4000A0, bc := 29 } }) 0 1 0 0 = true := by decide
/-- Vector R13: ALIGN after one bit. -/
theorem test_align_r13 : answers (exec .align s1AfterBfinal) 0 1 0 0 = true := by decide

/-! ### The table builder -/

/-- Vector B1: WRLENS 5, 2. -/
theorem test_wrlens :
    (afterwards (exec (.wrlens 5 2) (start []))).map (fun t => (Lens.cell t.lens 5, Lens.cell t.lens 4, t.result)) =
      some (some 2, none, 0) := by decide +kernel
/-- Vector B6: WRLENS 320 is refused. -/
theorem test_wrlens_range : fails (exec (.wrlens 320 0) (start [])) .cmdError 8 = true := by decide
/-- Vector B1, program P5: counts, symbols and USED. -/
theorem test_build_b1 :
    (afterwards (exec (.build .lt 0 8) { start [] with lens := lensWith 0 p5Lengths })).map
        (fun t => (t.result, (List.range 6).map t.lt.countAt, (List.range 8).map t.lt.symAt, t.lt.valid)) =
      some (8, [0, 0, 1, 5, 2, 0], [5, 0, 1, 2, 3, 4, 6, 7], true) := by decide +kernel
/-- Vector B4: symbols are relative to the offset. -/
theorem test_build_b4 :
    (afterwards (exec (.build .dt 300 2) { start [] with lens := lensWith 300 [1, 1] })).map
        (fun t => (t.result, t.dt.countAt 1, t.dt.symAt 0, t.dt.symAt 1)) =
      some (2, 2, 0, 1) := by decide +kernel

/-! ### The symbol decoder -/

/-- Vector D-F144: a 9-bit code of FLT. -/
theorem test_decode_flt : answers (exec (.decode .flt) (start [0x13, 0x00])) 144 2 0 7 = true := by decide +kernel
/-- Vector D-D29: a 5-bit code of FDT. -/
theorem test_decode_fdt : answers (exec (.decode .fdt) (start [0x17])) 29 1 0 3 = true := by decide +kernel
/-- Vector D5: a 15-bit code. -/
theorem test_decode_long :
    answers (exec (.decode .clt) { start [0x00, 0x40] with clt := twoLongCodes }) 1 2 0 1 = true := by decide +kernel
/-- Vectors B2, B2b: no code in 15 bits, and no code in 8. -/
theorem test_decode_no_code :
    fails (exec (.decode .dt) { start [0x00, 0x00] with dt := noCodes }) .dataError 2 = true ∧
      fails (exec (.decode .dt) { start [0x00] with dt := noCodes }) .dataError 1 = true := by decide +kernel

/-! ### The tree descriptor parser -/

/-- Vector T2: symbol 16 with no previous length. -/
theorem test_trees_t2 : fails (exec .trees (start [0x00, 0x40, 0x80, 0x04])) .dataError 3 = true := by decide +kernel

/-! ### Observation -/

/-- Program P5: RDLENS 5. -/
theorem test_rdlens : answers (exec (.rdlens 5) { start [] with lens := lensWith 0 p5Lengths }) 2 0 0 0 = true := by
  decide +kernel
/-- Vector B12: an unwritten cell faults. -/
theorem test_rdlens_unwritten : afterwards (exec (.rdlens 0) (start [])) = none := by decide
/-- Vector B7: FLT. -/
theorem test_rdtab_flt :
    [(Part.count, 7#9, 24#32), (.count, 9, 112), (.count, 0, 0), (.sym, 0, 256), (.sym, 24, 0), (.sym, 168, 280),
        (.sym, 287, 255)].all (fun c => answers (exec (.rdtab .flt c.1 c.2.1) (start [])) c.2.2 0 0 0) = true := by
  decide +kernel
/-- Vector O2: RDTAB of an unbuilt table. -/
theorem test_rdtab_unbuilt : fails (exec (.rdtab .dt .sym 0) (start [])) .cmdError 9 = true := by decide
/-- Vectors O1, O5: SRC_LEN, and BC with 15 look-ahead bits. -/
theorem test_rdreg : answers (exec (.rdreg .srcLen) (start [0x01, 0x02, 0x03])) 3 0 0 0 = true ∧
    answers (exec (.rdreg .bc) s1AfterBfinal) 15 2 1 15 = true := by decide

/-! ### Errors and steps -/

/-- Vector E1: after an error READBITS 0, 5 is ABORTED, and RDREG ERR_CAUSE returns the cause. -/
theorem test_sticky : fails (exec (.readbits 0 5) { start [] with err := true, errCause := 1 }) .aborted 1 = true ∧
    (afterwards (exec (.rdreg .errCause) { start [] with err := true, errCause := 1 })).map (·.result) = some 1 := by
  decide
/-- Vector E3: a CmdError keeps SI, BC and TAG. -/
theorem test_cmdError_keeps :
    (afterwards (step (s1AfterBfinal.withFetchWord 32 0x00000000))).map
        (fun t => (t.reader.si, t.reader.bc, t.reader.tag, t.err, t.errCause)) = some (2, 15, 1, true, 8) := by decide
/-- Vectors E4, E4b: TABLE_INVALID precedes EOI, ABORTED precedes both. -/
theorem test_error_order : fails (exec (.decode .lt) (start [])) .cmdError 9 = true ∧
    fails (step ({ start [] with err := true, errCause := 1 }.withFetchWord 32 0x55000000)) .aborted 1 = true := by
  decide
/-- A word at the command port runs as the first command after reset. -/
theorem test_withFetchWord : (afterwards (step (State.reset.withFetchWord 32 0x2000FFFF))).map (·.result) =
    some 65535 := by decide
/-- 10_state.md R35: reset on a source (vector O1's SRC). -/
theorem test_reset : (afterwards (step { s1AfterBfinal with err := true, port := [.reset [0x01, 0x02, 0x03]] })).map
    (fun t => (t.reader, t.err, t.src.len, t.src.read 2)) = some ({ si := 0, tag := 0, bc := 0 }, false, 3, 0x03) := by
  decide
/-- With no move of the host nothing changes. -/
theorem test_wait : afterwards (step s1AfterBfinal) = some s1AfterBfinal := by decide +kernel

/-! ### Witnesses: states that meet the hypotheses of each statement, at the boundaries of its clauses -/

/-- An outcome with a state after it. -/
theorem exists_next {o : Host.Outcome State Fault Refusal} (h : (afterwards o).isSome = true) : ∃ t, o = .next t := by
  cases o with
  | next t => exact ⟨t, rfl⟩
  | fault f => simp [afterwards] at h
  | refused r => simp [afterwards] at h

/-- An outcome with a state after it in which ERR = 0. -/
theorem exists_next_no_err {o : Host.Outcome State Fault Refusal} (h : (afterwards o).map (·.err) = some false) :
    ∃ t, o = .next t ∧ t.err = false := by
  cases o with
  | next t => exact ⟨t, rfl, by simpa [afterwards] using h⟩
  | fault f => simp [afterwards] at h
  | refused r => simp [afterwards] at h

/-- The reader right after reset meets (I1) to (I5). -/
theorem reader_inv_start (bytes : List Byte) : (start bytes).reader.inv (start bytes).src := by
  simp [start, Reader.inv]

/-- The reader of S1 after BFINAL meets (I1) to (I5), with 15 look-ahead bits. -/
theorem reader_inv_s1 : s1AfterBfinal.reader.inv s1AfterBfinal.src := by
  unfold Reader.inv; decide

/-- The reader of S1 after REFILL, before BFINAL: the same position as right after reset. -/
theorem reader_inv_refilled : (Reader.mk 2 0x0003 16).inv (start [0x03, 0x00]).src := by
  unfold Reader.inv; decide

/-- The reader of vector R9 at the end of its source. -/
def atEnd : State := { start [0xab] with reader := { si := 1, tag := 0, bc := 0 } }

theorem reader_inv_atEnd : atEnd.reader.inv atEnd.src := by unfold Reader.inv; decide

/-- One bit is left of `ab`. -/
def oneLeft : State := { start [0xab] with reader := { si := 1, tag := 1, bc := 1 } }

theorem reader_inv_oneLeft : oneLeft.reader.inv oneLeft.src := by unfold Reader.inv; decide

/-- The state of S1 after BFINAL meets the invariant. -/
theorem inv_s1 : s1AfterBfinal.inv :=
  ⟨by decide, by simp [s1AfterBfinal, start, State.causeLegal], fun _ =>
    ⟨reader_inv_s1, .inl ⟨rfl, rfl, rfl⟩, fun h => by simp [s1AfterBfinal, start, Table.unbuilt] at h,
      fun h => by simp [s1AfterBfinal, start, Table.unbuilt] at h,
      fun h => by simp [s1AfterBfinal, start, Table.unbuilt] at h⟩⟩

/-- The fixed distance table and the small tables of the vectors are in order. -/
theorem tables_ok : Table.fdt.ok ∧ twoLongCodes.ok ∧ oneCode.ok ∧ noCodes.ok := by
  unfold Table.ok; decide +kernel

/-! Command words and steps -/

theorem witness_DecodeOfEncode :
    [Instr.getbit, .readbits 0 0, .readbits 16 65535, .align, .build .lt 0 288, .build .dt 288 32, .build .clt 320 0,
      .decode .fdt, .trees, .wrlens 319 15, .rdlens 319, .rdtab .flt .count 15, .rdtab .clt .sym 18,
      .rdtab .lt .sym 287, .rdreg .srcLen].all Instr.wellFormed = true := by decide

theorem witness_EncodeOfDecode : decodeWord 0x2010FFFF = .ok (.readbits 16 65535) := by decide

theorem not_legal_readbits17 : ¬ legalWord 0x20110000 := by
  unfold legalWord opcodeRows; simp; decide

theorem witness_IllegalWordsAreRefused : ∃ (s : State) (w : Word) (rest : List HostMove),
    s.port = .command w :: rest ∧ ¬ legalWord w ∧ s.err = false :=
  ⟨{ start [] with port := [.command 0x20110000] }, _, _, rfl, not_legal_readbits17, rfl⟩

theorem witness_IllFormedCommandsAreRefused : (Instr.readbits 17 0).wellFormed = false ∧ (start []).err = false := by
  decide

theorem witness_StepRunsTheDecodedCommand : ∃ (s : State) (w : Word) (rest : List HostMove) (i : Instr),
    s.port = .command w :: rest ∧ decodeWord w = .ok i :=
  ⟨{ start [] with port := [.command 0x53000000] }, _, _, .decode .flt, rfl, by decide⟩

theorem witness_StepWaitsForTheHost : State.reset.port = [] := rfl

theorem witness_ResetStartsADecodeCall : ∃ (s : State) (bytes : List Byte) (rest : List HostMove),
    s.port = .reset bytes :: rest ∧ bytes.length < 2 ^ 32 :=
  ⟨{ s1AfterBfinal with port := [.reset [0x03, 0x00]] }, _, _, rfl, by decide⟩

theorem witness_LongSourcesAreRefused : ∃ (s : State) (bytes : List Byte) (rest : List HostMove),
    s.port = .reset bytes :: rest ∧ 2 ^ 32 ≤ bytes.length :=
  ⟨{ State.reset with port := [.reset (List.replicate (2 ^ 32) 0)] }, _, _, rfl, by rw [List.length_replicate]⟩

/-! The bitstream reader -/

/-- S1 row 1 leaves the look-ahead of one bit taken after REFILL: the source is read to its end. -/
theorem tookAfterRefill_s1 : s1AfterBfinal.reader.tookAfterRefill s1AfterBfinal.src 1 := by
  unfold Reader.tookAfterRefill; decide

theorem witness_GetbitReturnsTheNextStreamBit :
    (oneLeft.err = false ∧ oneLeft.reader.inv oneLeft.src) ∧ oneLeft.reader.pos < oneLeft.src.size :=
  ⟨⟨rfl, reader_inv_oneLeft⟩, by decide⟩

/-- n = 1 with one bit left, and n = 16 with 16 bits left. -/
theorem witness_ReadbitsReturnsTheField :
    (oneLeft.err = false ∧ oneLeft.reader.inv oneLeft.src ∧ 1 ≤ (1#5).toNat ∧ (1#5).toNat ≤ 16 ∧
      oneLeft.reader.pos + (1#5).toNat ≤ oneLeft.src.size) ∧
    ((start [0xff, 0xff]).err = false ∧ (start [0xff, 0xff]).reader.inv (start [0xff, 0xff]).src ∧
      1 ≤ (16#5).toNat ∧ (16#5).toNat ≤ 16 ∧
      (start [0xff, 0xff]).reader.pos + (16#5).toNat ≤ (start [0xff, 0xff]).src.size) :=
  ⟨⟨rfl, reader_inv_oneLeft, by decide⟩, rfl, reader_inv_start _, by decide⟩

theorem witness_ReadbitsZeroReturnsBase : atEnd.err = false := rfl

/-- At the end of the source a 1-bit read fails; with one bit left it does not, and a 2-bit read does. -/
theorem witness_ReadsFailExactlyAtTheEnd :
    (atEnd.err = false ∧ atEnd.reader.inv atEnd.src ∧ 1 ≤ (1#5).toNat ∧ (1#5).toNat ≤ 16 ∧
      atEnd.src.size < atEnd.reader.pos + (1#5).toNat) ∧
    (oneLeft.err = false ∧ oneLeft.reader.inv oneLeft.src ∧ ¬ oneLeft.src.size < oneLeft.reader.pos + (1#5).toNat ∧
      1 ≤ (2#5).toNat ∧ (2#5).toNat ≤ 16 ∧ oneLeft.src.size < oneLeft.reader.pos + (2#5).toNat) :=
  ⟨⟨rfl, reader_inv_atEnd, by decide⟩, rfl, reader_inv_oneLeft, by decide, by decide⟩

theorem witness_SplitReadsCompose :
    (start [0xff, 0xff]).err = false ∧ (start [0xff, 0xff]).reader.inv (start [0xff, 0xff]).src ∧
      1 ≤ (1#5).toNat ∧ 1 ≤ (15#5).toNat ∧ (1#5).toNat + (15#5).toNat ≤ 16 ∧
      (start [0xff, 0xff]).reader.pos + ((1#5).toNat + (15#5).toNat) ≤ (start [0xff, 0xff]).src.size :=
  ⟨rfl, reader_inv_start _, by decide⟩

theorem witness_AlignEmptiesTheBuffer : s1AfterBfinal.err = false := rfl

/-- In the middle of a byte, and at a multiple of 8. -/
theorem witness_AlignMovesToTheNextByte :
    (s1AfterBfinal.err = false ∧ s1AfterBfinal.reader.inv s1AfterBfinal.src ∧ s1AfterBfinal.reader.pos % 8 ≠ 0 ∧
      ∃ t, exec .align s1AfterBfinal = .next t) ∧
    (atEnd.err = false ∧ atEnd.reader.inv atEnd.src ∧ atEnd.reader.pos % 8 = 0 ∧
      ∃ t, exec .align atEnd = .next t) :=
  ⟨⟨rfl, reader_inv_s1, by decide, _, rfl⟩, rfl, reader_inv_atEnd, by decide, _, rfl⟩

theorem witness_ResultsDependOnThePositionOnly :
    (start [0x03, 0x00]).reader.inv (start [0x03, 0x00]).src ∧
      (Reader.mk 2 0x0003 16).inv (start [0x03, 0x00]).src ∧
      (Reader.mk 2 0x0003 16).pos = (start [0x03, 0x00]).reader.pos ∧
      ((start [0x03, 0x00]).lt.valid = true → (start [0x03, 0x00]).lt.ok) ∧
      ((start [0x03, 0x00]).dt.valid = true → (start [0x03, 0x00]).dt.ok) ∧
      ((start [0x03, 0x00]).clt.valid = true → (start [0x03, 0x00]).clt.ok) ∧
      Instr.getbit ≠ .rdreg .si ∧ Instr.getbit ≠ .rdreg .tag ∧ Instr.getbit ≠ .rdreg .bc ∧
      ∃ t, exec .getbit (start [0x03, 0x00]) = .next t :=
  ⟨reader_inv_start _, reader_inv_refilled, by decide, fun h => by simp [start, Table.unbuilt] at h,
    fun h => by simp [start, Table.unbuilt] at h, fun h => by simp [start, Table.unbuilt] at h, by decide, by decide,
    by decide, _, rfl⟩

/-! The table builder -/

theorem witness_WrlensWritesOneCell : (start []).err = false ∧ (319#9).toNat ≤ 319 := by decide

/-- The eight cells of P5, one cell at the end of LENS, and an empty range past it. -/
theorem witness_BuildWritesItsTable :
    ((start []).err = false ∧ Tbl.lt.writable = true ∧ (8#9).toNat ≤ Tbl.lt.cap ∧ (0#9).toNat + (8#9).toNat ≤ 320 ∧
      Lens.cells (lensWith 0 p5Lengths) (0#9).toNat (8#9).toNat = some p5Lengths) ∧
    (Tbl.clt.writable = true ∧ (1#9).toNat ≤ Tbl.clt.cap ∧ (319#9).toNat + (1#9).toNat ≤ 320 ∧
      Lens.cells (lensWith 319 [1]) (319#9).toNat (1#9).toNat = some [1]) ∧
    (Tbl.dt.writable = true ∧ (0#9).toNat ≤ Tbl.dt.cap ∧ (320#9).toNat + (0#9).toNat ≤ 320 ∧
      Lens.cells (lensWith 319 [1]) (320#9).toNat (0#9).toNat = some []) := by decide +kernel

theorem witness_BuildSortsTheSymbols :
    (Tbl.lt.writable = true ∧ (8#9).toNat ≤ Tbl.lt.cap ∧ (0#9).toNat + (8#9).toNat ≤ 320 ∧
      Lens.cells (lensWith 0 p5Lengths) (0#9).toNat (8#9).toNat = some p5Lengths) ∧
      ∃ t, exec (.build .lt 0 8) { start [] with lens := lensWith 0 p5Lengths } = .next t :=
  ⟨witness_BuildWritesItsTable.1.2, exists_next (by decide +kernel)⟩

/-- The last cell of LENS, unwritten after reset, in a BUILD and in an RDLENS. -/
theorem witness_UnwrittenLensCellsFault :
    ((start []).err = false ∧ Tbl.lt.writable = true ∧ (1#9).toNat ≤ Tbl.lt.cap ∧ (319#9).toNat + (1#9).toNat ≤ 320 ∧
      0 < (1#9).toNat ∧ Lens.cell (start []).lens ((319#9).toNat + 0) = none) ∧
      (319#9).toNat ≤ 319 ∧ Lens.cell (start []).lens (319#9).toNat = none := by decide +kernel

/-! The symbol decoder -/

/-- A 1-bit code with one bit left, and a 15-bit code with 15 bits left: vectors B9 and D5. -/
def lastBitZero : State :=
  { start [0x00] with reader := { si := 1, tag := 0, bc := 1 }, dt := oneCode }

def fifteenLeft : State :=
  { start [0x00, 0x80] with reader := { si := 2, tag := 0x4000, bc := 15 }, clt := twoLongCodes }

theorem witness_DecodeReadsTheCanonicalCode :
    (lastBitZero.err = false ∧ lastBitZero.reader.inv lastBitZero.src ∧ (lastBitZero.table .dt).valid = true ∧ (lastBitZero.table .dt).ok ∧
      0 < (lastBitZero.table .dt).countAt 1 ∧
      lastBitZero.src.codeAt lastBitZero.reader.pos 1 = firstCode (lastBitZero.table .dt).countAt 1 + 0 ∧
      (∀ m, 1 ≤ m → m < 1 → ¬ lastBitZero.src.codeEnds (lastBitZero.table .dt).countAt lastBitZero.reader.pos m) ∧
      lastBitZero.reader.pos + 1 ≤ lastBitZero.src.size) ∧
    (fifteenLeft.err = false ∧ fifteenLeft.reader.inv fifteenLeft.src ∧ (fifteenLeft.table .clt).valid = true ∧ (fifteenLeft.table .clt).ok ∧
      1 < (fifteenLeft.table .clt).countAt 15 ∧
      fifteenLeft.src.codeAt fifteenLeft.reader.pos 15 = firstCode (fifteenLeft.table .clt).countAt 15 + 1 ∧
      (∀ m, 1 ≤ m → m < 15 → ¬ fifteenLeft.src.codeEnds (fifteenLeft.table .clt).countAt fifteenLeft.reader.pos m) ∧
      fifteenLeft.reader.pos + 15 ≤ fifteenLeft.src.size) := by
  refine ⟨⟨rfl, ?_, by decide +kernel, tables_ok.2.2.1, by decide +kernel, by decide +kernel, fun m h1 h2 => by omega,
      by decide +kernel⟩,
    rfl, ?_, by decide +kernel, tables_ok.2.1, by decide +kernel, by decide +kernel, ?_, by decide +kernel⟩
  · unfold Reader.inv; decide
  · unfold Reader.inv; decide
  · intro m h1 h2
    have : ∀ m < 15, 1 ≤ m → ¬ fifteenLeft.src.codeEnds (fifteenLeft.table .clt).countAt fifteenLeft.reader.pos m := by
      decide +kernel
    exact this m h2 h1

/-- No code in the 15 bits left; no code in no bits at all, and in 14; and the two codes above. -/
def fifteenLeftNoCode : State := { fifteenLeft with dt := noCodes }

def fourteenLeft : State :=
  { start [0x00, 0x80] with reader := { si := 2, tag := 0x2000, bc := 14 }, dt := noCodes }

theorem witness_DecodeFailsAsTheBitsRunOut :
    (fifteenLeftNoCode.err = false ∧ fourteenLeft.err = false ∧ (start []).err = false ∧ fifteenLeft.err = false ∧
      lastBitZero.err = false ∧ twoLongCodes.ok ∧ oneCode.ok) ∧
    (fifteenLeftNoCode.reader.inv fifteenLeftNoCode.src ∧ noCodes.valid = true ∧ noCodes.ok ∧
      fifteenLeftNoCode.reader.pos + 15 = fifteenLeftNoCode.src.size ∧
      ∀ m, 1 ≤ m → m ≤ 15 →
        ¬ fifteenLeftNoCode.src.codeEnds noCodes.countAt fifteenLeftNoCode.reader.pos m) ∧
    (fourteenLeft.reader.inv fourteenLeft.src ∧ fourteenLeft.reader.pos + 14 = fourteenLeft.src.size ∧
      ∀ m, 1 ≤ m → m ≤ 14 → ¬ fourteenLeft.src.codeEnds noCodes.countAt fourteenLeft.reader.pos m) ∧
    ((start []).reader.inv (start []).src ∧ (start []).reader.pos + 0 = (start []).src.size) ∧
    (fifteenLeft.src.codeEnds twoLongCodes.countAt fifteenLeft.reader.pos 15 ∧
      lastBitZero.src.codeEnds oneCode.countAt lastBitZero.reader.pos 1) := by
  refine ⟨⟨rfl, rfl, rfl, rfl, rfl, tables_ok.2.1, tables_ok.2.2.1⟩,
    ⟨?_, by decide +kernel, tables_ok.2.2.2, by decide +kernel, fun m h1 h2 => ?_⟩,
    ⟨?_, by decide +kernel, fun m h1 h2 => ?_⟩, ⟨reader_inv_start _, by decide⟩, by decide +kernel⟩
  · unfold Reader.inv; decide
  · have : ∀ m < 16, 1 ≤ m →
        ¬ fifteenLeftNoCode.src.codeEnds noCodes.countAt fifteenLeftNoCode.reader.pos m := by decide +kernel
    exact this m (by omega) h1
  · unfold Reader.inv; decide
  · have : ∀ m < 15, 1 ≤ m → ¬ fourteenLeft.src.codeEnds noCodes.countAt fourteenLeft.reader.pos m := by
      decide +kernel
    exact this m (by omega) h1

/-- Vector D-D0. -/
theorem witness_DecodedSymbolsAreInRange :
    (start [0x00]).reader.inv (start [0x00]).src ∧ ((start [0x00]).table .fdt).ok ∧
      ∃ t, exec (.decode .fdt) (start [0x00]) = .next t ∧ t.err = false :=
  ⟨reader_inv_start _, tables_ok.1, exists_next_no_err (by decide +kernel)⟩

theorem witness_UnbuiltTablesAreRefused : (start []).err = false ∧ ((start []).table .clt).valid = false ∧
    (Instr.decode .clt).wellFormed = true ∧ (Instr.rdtab .clt .sym 18).wellFormed = true := by decide

/-! The tree descriptor parser -/

/-- Vector T3b, whose descriptor is 46 bits long. -/
def t3b : State := start [0x00, 0x00, 0x12, 0xc0, 0x7f, 0x35]

theorem witness_TreesParsesTheDescriptor : t3b.err = false ∧ t3b.reader.inv t3b.src ∧
    ∃ d, t3b.src.treesAt t3b.reader.pos = .ok d := by
  have h : (t3b.src.treesAt t3b.reader.pos).toOption.map (·.pos) = some 46 := by decide +kernel
  refine ⟨rfl, reader_inv_start _, ?_⟩
  cases e : t3b.src.treesAt t3b.reader.pos with
  | ok d => exact ⟨d, rfl⟩
  | error c => simp [e, Except.toOption] at h

/-- One descriptor for each cause: vectors T5, T4, T2 and T3. -/
theorem witness_TreesReportsTheFirstFailure :
    (start [0x00]).src.treesAt 0 = .error .eoi ∧
      (start [0x00, 0x00, 0x00, 0x00, 0x00, 0x00]).src.treesAt 0 = .error .codeTooLong ∧
      (start [0x00, 0x40, 0x80, 0x04]).src.treesAt 0 = .error .repeatNoPrev ∧
      (start [0x00, 0x00, 0x12, 0xc0, 0xff, 0x3f]).src.treesAt 0 = .error .descOverflow := by decide +kernel

/-- Vector T3b again: its TREES ends OK, which the packing and the legality statements ask for. -/
theorem witness_TreesPacksItsResult : t3b.err = false ∧ t3b.reader.inv t3b.src ∧
    ∃ t, exec .trees t3b = .next t ∧ t.err = false := by
  have ends : ∀ s : State, s.err = false → s.reader.inv s.src → (∃ d, s.src.treesAt s.reader.pos = .ok d) →
      ∃ t, exec .trees s = .next t ∧ t.err = false := by
    intro s h1 h2 ⟨d, h3⟩
    have h := treesProc_spec h2
    rw [h3] at h
    obtain ⟨l, r, h4, -⟩ := h
    rw [exec_eq, if_pos (.inr h1), Instr.wellFormed, checked_legal, procOf, h4, finish_ok]
    exact ⟨_, rfl, h1⟩
  exact ⟨witness_TreesParsesTheDescriptor.1, witness_TreesParsesTheDescriptor.2.1,
    ends _ witness_TreesParsesTheDescriptor.1 witness_TreesParsesTheDescriptor.2.1 witness_TreesParsesTheDescriptor.2.2⟩

theorem witness_TreesLeavesLegalFieldsAndTables : t3b.err = false ∧ t3b.reader.inv t3b.src ∧
    ∃ t, exec .trees t3b = .next t ∧ t.err = false := witness_TreesPacksItsResult

/-! Observation, errors and the whole machine -/

theorem witness_RdlensReturnsTheCell : ((319#9).toNat ≤ 319 ∧ Lens.cell (lensWith 319 [7]) (319#9).toNat = some 7) ∧
    (0#9).toNat ≤ 319 ∧ Lens.cell (lensWith 0 [7]) (0#9).toNat = some 7 := by decide +kernel

/-- FLT: the last count cell, and the last used symbol cell. -/
theorem witness_RdtabReturnsTheCell : ((start []).table .flt).valid = true ∧ (15#9).toNat < Part.count.size .flt ∧
    (287#9).toNat < Part.sym.size .flt ∧ (287#9).toNat < ((start []).table .flt).used := by decide +kernel

/-- The last selector. -/
theorem witness_RdregReturnsTheRegister : (8#4).toNat ≤ 8 := by decide

theorem witness_ObservationDisturbsNoCommand :
    (Instr.rdreg .si).isObservation = true ∧ Instr.getbit.isObservation = false ∧
      (∃ t, exec (.rdreg .si) s1AfterBfinal = .next t ∧ t.err = s1AfterBfinal.err) ∧
      ∃ u, exec .getbit s1AfterBfinal = .next u := ⟨rfl, rfl, ⟨_, rfl, rfl⟩, _, rfl⟩

/-- After vector R1's EOI: a command, an illegal word, an observation that succeeds and one that would raise an error. -/
def afterEoi : State := { start [] with err := true, errCause := 1, port := [.command 0x20110000] }

theorem witness_StickyAbort : (afterEoi.err = true ∧ Instr.align.isObservation = false) ∧
    (∃ w rest, afterEoi.port = .command w :: rest ∧ ¬ legalWord w) ∧
    (∃ u, exec (.rdreg .errCause) { afterEoi with err := false } = .next u ∧ u.err = false) ∧
    ∃ u, exec (.rdtab .lt .sym 0) { afterEoi with err := false } = .next u ∧ u.err = true :=
  ⟨⟨rfl, rfl⟩, ⟨_, _, rfl, not_legal_readbits17⟩, ⟨_, rfl, rfl⟩, _, rfl, rfl⟩

/-- A command that ends OK, one that ends ABORTED, a DataError and a CmdError; and a step with ERR = 1. -/
theorem witness_OnlyErrorsAndResetWriteTheCause :
    (∃ t, exec .align (start []) = .next t) ∧ (∃ t, exec .align afterEoi = .next t) ∧
      (∃ t, exec .getbit (start []) = .next t) ∧ (∃ t, exec (.decode .lt) (start []) = .next t) ∧
      ∃ t, step afterEoi = .next t ∧ afterEoi.err = true := ⟨⟨_, rfl⟩, ⟨_, rfl⟩, ⟨_, rfl⟩, ⟨_, rfl⟩, _, rfl, rfl⟩

/-- A CmdError and a DataError. -/
theorem witness_CmdErrorsKeepTheState :
    (∃ t, exec (.decode .lt) (start []) = .next t ∧ t.err = true ∧ t.errCause.toNat ∈ [8, 9]) ∧
      ∃ t, exec .getbit (start []) = .next t ∧ t.err = true ∧ t.errCause.toNat ∈ [1, 2, 3, 4] :=
  ⟨⟨_, rfl, rfl, by decide⟩, _, rfl, rfl, by decide⟩

theorem witness_NoCommandWritesTheSource : ∃ t, exec .getbit s1AfterBfinal = .next t := ⟨_, rfl⟩

/-- A command that consumes, and one that writes LENS. -/
theorem witness_CommandsKeepWhatTheyDoNotWrite :
    (∃ t, exec .getbit s1AfterBfinal = .next t ∧ t.err = false) ∧
      ∃ t, exec (.wrlens 0 1) s1AfterBfinal = .next t ∧ t.err = false := ⟨⟨_, rfl, rfl⟩, _, rfl, rfl⟩

theorem witness_PositionNeverMovesBack : s1AfterBfinal.inv ∧ s1AfterBfinal.scrambled = false ∧
    ∃ t, exec .getbit s1AfterBfinal = .next t ∧ t.scrambled = false := ⟨inv_s1, rfl, _, rfl, rfl⟩

/-- The state of S1 with BTYPE's word at the port. -/
def s1WithWord : State := { s1AfterBfinal with port := [.command 0x20020000] }

theorem inv_s1WithWord : s1WithWord.inv := inv_s1

theorem witness_LookAheadIsBounded : s1WithWord.inv ∧ ∃ t, step s1WithWord = .next t ∧ t.scrambled = false :=
  ⟨inv_s1WithWord, _, rfl, rfl⟩

/-- A command that answers OK, and one that raises a DataError. -/
theorem witness_EveryStepKeepsTheInvariant : (s1WithWord.inv ∧ ∃ t, step s1WithWord = .next t) ∧
    ∃ t, step { s1WithWord with port := [.command 0x20100000] } = .next t ∧ t.scrambled = true :=
  ⟨⟨inv_s1WithWord, _, rfl⟩, _, rfl, rfl⟩

/-- The three ways of a step: it goes on, it faults on an unwritten cell, it refuses a long source. -/
theorem witness_StepsGoOn : s1WithWord.inv ∧
    State.inv { s1WithWord with port := [.command 0x80000000] } ∧
    State.inv { s1WithWord with port := [.reset (List.replicate (2 ^ 32) 0)] } := ⟨inv_s1, inv_s1, inv_s1⟩

end Sys2Proof.Tests
end

section
/-! PROOF. The frame of the source space: no command writes it or the moves of the host (00_scope.md R12, 20_memory.md R52, R61). -/

namespace Sys2Proof.Machine

/-- A command that gives a next state keeps the source and the host's moves: a refusal and an error write neither, and no procedure does. -/
theorem exec_keeps_src_port {i : Instr} {s t : State} (h : exec i s = .next t) : t.src = s.src ∧ t.port = s.port := by
  obtain ⟨-, -, rfl⟩ | ⟨-, ⟨hw, v, u, hp, rfl⟩ | ⟨-, c, -, rfl⟩ | ⟨c, rfl⟩⟩ := exec_next h
  · exact ⟨s.abort_src, s.abort_port⟩
  · obtain ⟨hsrc, -, -, hport⟩ := procOf_ok_keeps hw hp
    exact ⟨(u.ok_src v).trans hsrc, (u.ok_port v).trans hport⟩
  · exact ⟨s.raiseData_src c, s.raiseData_port c⟩
  · exact ⟨s.raiseCmd_src c, s.raiseCmd_port c⟩

/-- Settles O42: an address reads as before because the source it is read from is the same. -/
theorem noCommandWritesTheSource : Obligations.NoCommandWritesTheSource := by
  unfold Obligations.NoCommandWritesTheSource
  intro s t i h
  obtain ⟨hsrc, hport⟩ := exec_keeps_src_port h
  exact ⟨fun a => by rw [hsrc], hsrc, hport⟩

end Sys2Proof.Machine
end

section
/-! PROOF. The look-ahead is not seen (40_bitstream_reader.md R109): two readers in order at one position read the same values and end at one position, so every command but RDREG of SI, TAG and BC answers alike. -/

namespace Sys2Proof.Machine

/-- Two readers in order at the same position; they may have looked ahead differently far (10_state.md R34). -/
def Reader.SamePlace (src : Source) (r r' : Reader) : Prop := r.inv src ∧ r'.inv src ∧ r'.pos = r.pos

/-- Two reads end alike: with the same error, or with the same value and readers at the same position. -/
def ReadsAlike {α : Type} (src : Source) (a b : Except Stop (α × Reader)) : Prop :=
  (∃ e, a = .error e ∧ b = .error e) ∨ ∃ v q q', a = .ok (v, q) ∧ b = .ok (v, q') ∧ Reader.SamePlace src q q'

/-- Two procedures end alike: with the same error, or with the same value and states that differ in the look-ahead alone. -/
def ProcsAlike (src : Source) (a b : Except Stop (Word × State)) : Prop :=
  (∃ e, a = .error e ∧ b = .error e) ∨
    ∃ v u q, a = .ok (v, u) ∧ b = .ok (v, { u with reader := q }) ∧ Reader.SamePlace src u.reader q

/-- The outcome `o` is the state `t` but for the look-ahead, which is in order wherever `t`'s is specified. -/
def AnswersAlike (src : Source) (o : Host.Outcome State Fault Refusal) (t : State) : Prop :=
  ∃ q, o = .next { t with reader := q } ∧ (t.scrambled = false → q.pos = t.reader.pos ∧ q.inv src)

/-! ### The reader's operations -/

/-- A field read depends on the position only. -/
theorem Reader.readf_alike {src : Source} {r r' : Reader} {n : Nat} (base : Nat) (h : Reader.SamePlace src r r')
    (hn : n ≤ 24) : ReadsAlike src (r.readf src n base) (r'.readf src n base) := by
  obtain ⟨hi, hi', hp⟩ := h
  have h1 := Reader.readf_at base hi hn
  have h2 := Reader.readf_at base hi' hn
  rw [hp] at h2
  cases hv : src.readAt r.pos n with
  | error c =>
    simp only [hv] at h1 h2
    exact .inl ⟨_, h1, h2⟩
  | ok v =>
    simp only [hv] at h1 h2
    obtain ⟨q, e, hq, pq⟩ := h1
    obtain ⟨q', e', hq', pq'⟩ := h2
    exact .inr ⟨_, q, q', e, e', hq, hq', pq'.trans pq.symm⟩

/-- Decoding a symbol depends on the position only. -/
theorem Table.decodeProc_alike {cap : Nat} (t : Table cap) {src : Source} {r r' : Reader} (h0 : t.countAt 0 = 0)
    (h : Reader.SamePlace src r r') : ReadsAlike src (t.decodeProc src r) (t.decodeProc src r') := by
  obtain ⟨hi, hi', hp⟩ := h
  have h1 := Table.decodeProc_spec t h0 hi
  have h2 := Table.decodeProc_spec t h0 hi'
  rw [hp] at h2
  cases hd : src.decodeAt t.countAt r.pos codeLengths with
  | error c =>
    simp only [hd] at h1 h2
    exact .inl ⟨_, h1, h2⟩
  | ok x =>
    simp only [hd] at h1 h2
    obtain ⟨q, e, hq, pq⟩ := h1
    obtain ⟨q', e', hq', pq'⟩ := h2
    exact .inr ⟨_, q, q', e, e', hq, hq', pq'.trans pq.symm⟩

/-! ### The procedures -/

/-- LENS is its cells. -/
theorem Lens.ext_cell {l l' : Lens} (h : ∀ i, Lens.cell l i = Lens.cell l' i) : l = l' := by
  apply Vector.ext
  intro i hi
  have hi' : i < 320 := hi
  simpa [Lens.cell, hi'] using h i

/-- The tables do not depend on the reader. -/
@[simp] theorem State.table_withReader (s : State) (r : Reader) (tbl : Tbl) :
    State.table { s with reader := r } tbl = s.table tbl := by
  cases tbl <;> rfl

/-- Writing a table and replacing the reader do not disturb each other. -/
theorem State.setTable_withReader (s : State) (r : Reader) (tbl : Tbl) (t : Table tbl.cap) :
    State.setTable { s with reader := r } tbl t = { s.setTable tbl t with reader := r } := by
  cases tbl <;> rfl

/-- A CmdError neither reads nor writes the reader (60_exceptions.md R236). -/
theorem State.raiseCmd_withReader (s : State) (r : Reader) (c : CmdCause) :
    State.raiseCmd c { s with reader := r } = { s.raiseCmd c with reader := r } := by
  obtain ⟨_, _, _ | _, _⟩ := s <;> rfl

/-- Where the valid tables of the state are in order, `count[0]` of every valid table is 0. -/
theorem State.countAt_zero_of_valid {s : State} (hlt : s.lt.valid = true → s.lt.ok)
    (hdt : s.dt.valid = true → s.dt.ok) (hclt : s.clt.valid = true → s.clt.ok) (tbl : Tbl)
    (hv : (s.table tbl).valid = true) : (s.table tbl).countAt 0 = 0 := by
  cases tbl with
  | lt => exact (hlt hv).1
  | dt => exact (hdt hv).1
  | clt => exact (hclt hv).1
  | flt => rfl
  | fdt => rfl

section
variable {s : State} {r : Reader} (h : Reader.SamePlace s.src s.reader r)
include h

theorem readField_alike {n : Nat} (base : Nat) (hn : n ≤ 24) :
    ProcsAlike s.src (readField n base s) (readField n base { s with reader := r }) := by
  unfold readField
  obtain ⟨e, h1, h2⟩ | ⟨v, q, q', h1, h2, hq⟩ := Reader.readf_alike base h hn
  · exact .inl ⟨e, by simp [h1], by simp [h2]⟩
  · exact .inr ⟨BitVec.ofNat 32 v, { s with reader := q }, q', by simp [h1], by simp [h2], hq⟩

theorem readbitsProc_alike {n : BitVec 5} (base : BitVec 16) (hn : n.toNat ≤ 16) :
    ProcsAlike s.src (readbitsProc n base s) (readbitsProc n base { s with reader := r }) := by
  unfold readbitsProc
  split
  · exact .inr ⟨_, s, r, rfl, rfl, h⟩
  · exact readField_alike h base.toNat (by omega)

theorem decodeTableProc_alike {tbl : Tbl} (h0 : (s.table tbl).valid = true → (s.table tbl).countAt 0 = 0) :
    ProcsAlike s.src (decodeTableProc tbl s) (decodeTableProc tbl { s with reader := r }) := by
  cases hv : (s.table tbl).valid with
  | false => exact .inl ⟨.cmd .tableInvalid, by simp [decodeTableProc, hv], by simp [decodeTableProc, hv]⟩
  | true =>
    obtain ⟨e, h1, h2⟩ | ⟨v, q, q', h1, h2, hq⟩ := Table.decodeProc_alike (s.table tbl) (h0 hv) h
    · exact .inl ⟨e, by simp [decodeTableProc, hv, h1], by simp [decodeTableProc, hv, h2]⟩
    · exact .inr ⟨v.setWidth 32, { s with reader := q }, q', by simp [decodeTableProc, hv, h1],
        by simp [decodeTableProc, hv, h2], hq⟩

/-- Reading a table cell does not touch the reader. -/
theorem rdtabProc_alike (tbl : Tbl) (part : Part) (idx : Nat) :
    ProcsAlike s.src (rdtabProc tbl part idx s) (rdtabProc tbl part idx { s with reader := r }) := by
  cases hv : (s.table tbl).valid with
  | false => exact .inl ⟨.cmd .tableInvalid, by simp [rdtabProc, hv], by simp [rdtabProc, hv]⟩
  | true =>
    cases part with
    | count => exact .inr ⟨_, s, r, by simp [rdtabProc, hv]; rfl, by simp [rdtabProc, hv], h⟩
    | sym =>
      by_cases hu : idx < (s.table tbl).used
      · exact .inr ⟨_, s, r, by simp [rdtabProc, hv, hu]; rfl, by simp [rdtabProc, hv, hu], h⟩
      · exact .inr ⟨_, { s with draws := s.draws + 1 }, r, by simp [rdtabProc, hv, hu]; rfl,
          by simp [rdtabProc, hv, hu], h⟩

/-- TREES is the abstract parse at the position, and the parse fixes LENS: its own cells, and the old ones past them. -/
theorem treesProc_alike : ProcsAlike s.src (treesProc s) (treesProc { s with reader := r }) := by
  obtain ⟨hi, hi', hp⟩ := h
  have h1 := treesProc_spec hi
  have h2 := treesProc_spec (s := { s with reader := r }) hi'
  simp only [hp] at h2
  cases hd : s.src.treesAt s.reader.pos with
  | error c =>
    simp only [hd] at h1 h2
    exact .inl ⟨_, h1, h2⟩
  | ok d =>
    simp only [hd] at h1 h2
    obtain ⟨l, q, e, hq, pq, hl, -, hlen, keep⟩ := h1
    obtain ⟨l', q', e', hq', pq', hl', -, -, keep'⟩ := h2
    have hll : l' = l := Lens.ext_cell fun i => by
      by_cases hin : i < d.lens.length
      · rw [hl i hin, hl' i hin]
      · rw [keep i (by omega), keep' i (by omega)]
    rw [hll] at e'
    exact .inr ⟨_, _, q', e, e', hq, hq', pq'.trans pq.symm⟩

/-- Every procedure but that of RDREG of SI, TAG or BC ends alike. -/
theorem procOf_alike {i : Instr} (hw : i.wellFormed = true) (hsi : i ≠ .rdreg .si) (htag : i ≠ .rdreg .tag)
    (hbc : i ≠ .rdreg .bc) (h0 : ∀ tbl, (s.table tbl).valid = true → (s.table tbl).countAt 0 = 0) :
    ProcsAlike s.src (procOf i s) (procOf i { s with reader := r }) := by
  cases i with
  | getbit => exact readField_alike h 0 (by omega)
  | readbits n base => exact readbitsProc_alike h base (by simpa [Instr.wellFormed] using hw)
  | align =>
    obtain ⟨hi, hi', hp⟩ := h
    obtain ⟨ha, pa⟩ := Reader.align_inv hi
    obtain ⟨ha', pa'⟩ := Reader.align_inv hi'
    exact .inr ⟨0, _, r.align, rfl, rfl, ha, ha', by rw [pa', pa, hp]⟩
  | build tbl off num =>
    simp only [procOf, buildTableProc, State.table_withReader, State.setTable_withReader]
    cases (s.table tbl).buildProc s.lens off.toNat num.toNat with
    | error e => exact .inl ⟨e, rfl, rfl⟩
    | ok t => exact .inr ⟨_, s.setTable tbl t, r, rfl, rfl, by rw [State.setTable_reader]; exact h⟩
  | decode tbl => exact decodeTableProc_alike h (h0 tbl)
  | trees => exact treesProc_alike h
  | wrlens idx val => exact .inr ⟨0, _, r, rfl, rfl, h⟩
  | rdlens idx =>
    simp only [procOf, rdlensProc]
    cases Lens.cell s.lens idx.toNat with
    | none => exact .inl ⟨_, rfl, rfl⟩
    | some v => exact .inr ⟨_, s, r, rfl, rfl, h⟩
  | rdtab tbl part idx => exact rdtabProc_alike h tbl part idx.toNat
  | rdreg reg =>
    cases reg with
    | si => exact absurd rfl hsi
    | tag => exact absurd rfl htag
    | bc => exact absurd rfl hbc
    | _ => exact .inr ⟨_, s, r, rfl, rfl, h⟩

/-! ### The common checks -/

/-- A CmdError writes the same whatever the reader is. -/
theorem raiseCmd_alike (c : CmdCause) : AnswersAlike s.src (.next (State.raiseCmd c { s with reader := r })) (s.raiseCmd c) := by
  refine ⟨r, by rw [State.raiseCmd_withReader], fun _ => ⟨?_, h.2.1⟩⟩
  rw [State.raiseCmd_reader]
  exact h.2.2

/-- The end of a command whose procedures ended alike. -/
theorem finish_alike {a b : Except Stop (Word × State)} {t : State} (hab : ProcsAlike s.src a b)
    (ht : finish a s = .next t) : AnswersAlike s.src (finish b { s with reader := r }) t := by
  obtain ⟨e, rfl, rfl⟩ | ⟨v, u, q, rfl, rfl, -, hq, pq⟩ := hab
  · cases e with
    | data c =>
      rw [finish_data, Host.Outcome.next.injEq] at ht
      subst ht
      refine ⟨(s.raiseData c).reader, rfl, fun hs => ?_⟩
      cases c <;> simp [State.scrambled, DataCause.code] at hs
    | cmd c =>
      rw [finish_cmd, Host.Outcome.next.injEq] at ht
      subst ht
      exact raiseCmd_alike h c
    | fault f => simp at ht
  · rw [finish_ok, Host.Outcome.next.injEq] at ht
    subst ht
    exact ⟨q, rfl, fun _ => ⟨pq, hq⟩⟩

/-- The legality test is that of the command alone; behind it stand procedures that end alike. -/
theorem checked_alike {l : Bool} {p : State → Except Stop (Word × State)} {t : State}
    (hp : l = true → ProcsAlike s.src (p s) (p { s with reader := r })) (ht : checked l p s = .next t) :
    AnswersAlike s.src (checked l p { s with reader := r }) t := by
  cases l with
  | true => exact finish_alike h (hp rfl) ht
  | false =>
    rw [checked_illegal, Host.Outcome.next.injEq] at ht
    subst ht
    exact raiseCmd_alike h _

end

/-- Settles O20: the common checks do not read the reader, and every procedure is a function of the position. -/
theorem resultsDependOnThePositionOnly : Obligations.ResultsDependOnThePositionOnly := by
  unfold Obligations.ResultsDependOnThePositionOnly
  intro s t r i hsi htag hbc hlt hdt hclt hi hr hp ht
  have h : Reader.SamePlace s.src s.reader r := ⟨hi, hr, hp⟩
  rw [exec_eq] at ht ⊢
  split at ht
  · rename_i hrun
    rw [if_pos hrun]
    exact checked_alike h (fun hw => procOf_alike h hw hsi htag hbc (State.countAt_zero_of_valid hlt hdt hclt)) ht
  · rename_i hrun
    rw [if_neg hrun]
    rw [Host.Outcome.next.injEq] at ht
    subst ht
    exact ⟨r, rfl, fun _ => ⟨hp, hr⟩⟩

end Sys2Proof.Machine
end

section
/-! PROOF. The invariant of the machine: reset has it, every step keeps it, and what follows from it of the position, the look-ahead and the stops. -/

namespace Sys2Proof.Machine

/-! ### Reset -/

/-- A reader that has read nothing is in order on every source. -/
theorem Reader.inv_zero (src : Source) : Reader.inv src { si := 0, tag := 0, bc := 0 } :=
  ⟨by simp, by simp, by simp, by simp, fun j hj => by simp at hj⟩

/-- The state after reset is in order on every source, whatever the host's moves and the draw counter. -/
theorem State.reset_inv_of_src {src : Source} (h : src.wf) (port : List HostMove) (draws : Nat) :
    State.inv { State.reset with src := src, port := port, draws := draws } := by
  refine ⟨h, rfl, fun _ => ⟨Reader.inv_zero src, .inl ⟨rfl, rfl, rfl⟩, ?_, ?_, ?_⟩⟩ <;> intro hv <;> cases hv

/-- Settles O47: the empty source is canonical, and reset leaves an empty buffer, zero registers and no valid table. -/
theorem resetHasTheInvariant : Obligations.ResetHasTheInvariant :=
  State.reset_inv_of_src State.reset_src_wf [] 0

/-! ### The invariant, command by command -/

/-- From ERR = 0 the working state is specified. -/
theorem State.scrambled_of_no_err {s : State} (h : s.err = false) : s.scrambled = false := by
  simp [State.scrambled, h]

/-- A DataError leaves the working state unspecified (60_exceptions.md R236). -/
@[simp] theorem State.scrambled_raiseData (s : State) (c : DataCause) : (s.raiseData c).scrambled = true := by
  cases c <;> rfl

/-- A DataError leaves a legal cause, and the rest of the invariant says nothing of what it drew. -/
theorem State.inv_raiseData {s : State} (h : s.inv) (c : DataCause) : (s.raiseData c).inv := by
  refine ⟨h.1, ?_, fun hs => ?_⟩
  · cases c <;> simp [State.causeLegal, DataCause.code]
  · rw [State.scrambled_raiseData] at hs; cases hs

/-- A CmdError sets a legal cause from ERR = 0 and writes no working state (60_exceptions.md R236, R237). -/
theorem State.inv_raiseCmd {s : State} (h : s.inv) (c : CmdCause) : (s.raiseCmd c).inv := by
  obtain ⟨hsrc, hcause, hwork⟩ := h
  unfold State.raiseCmd
  cases he : s.err with
  | true => exact ⟨hsrc, hcause, hwork⟩
  | false =>
    refine ⟨hsrc, ?_, fun _ => hwork (State.scrambled_of_no_err he)⟩
    cases c <;> simp [State.causeLegal, CmdCause.code]

/-- A procedure that returns keeps ERR and its cause, and the working state in order. -/
theorem State.inv_of_procOf_ok {i : Instr} {s u : State} {v : Word} (h : s.inv) (hw : i.wellFormed = true)
    (hp : procOf i s = .ok (v, u)) : (u.ok v).inv := by
  obtain ⟨hsrc, hcause, hwork⟩ := h
  obtain ⟨esrc, eerr, ecause, -⟩ := procOf_ok_keeps hw hp
  refine ⟨?_, ?_, fun hs => ?_⟩
  · rw [State.ok_src, esrc]; exact hsrc
  · simpa only [State.causeLegal, State.ok_err, State.ok_errCause, eerr, ecause] using hcause
  · have hs' : s.scrambled = false := by
      simpa only [State.scrambled, State.ok_err, State.ok_errCause, eerr, ecause] using hs
    exact (procOf_working hw hp (hwork hs')).1

/-- Every command keeps the invariant. -/
theorem exec_keeps_inv {i : Instr} {s t : State} (h : s.inv) (he : exec i s = .next t) : t.inv := by
  obtain ⟨-, -, rfl⟩ | ⟨-, ⟨hw, v, u, hp, rfl⟩ | ⟨-, c, -, rfl⟩ | ⟨c, rfl⟩⟩ := exec_next he
  · exact h
  · exact State.inv_of_procOf_ok h hw hp
  · exact State.inv_raiseData h c
  · exact State.inv_raiseCmd h c

/-- A command word keeps the invariant, legal or not. -/
theorem runWord_keeps_inv {w : Word} {s t : State} (h : s.inv) (ht : runWord w s = .next t) : t.inv := by
  unfold runWord at ht
  cases hd : decodeWord w with
  | ok i =>
    simp only [hd] at ht
    exact exec_keeps_inv h ht
  | error e =>
    simp only [hd, illegalWord, Host.Outcome.next.injEq] at ht
    exact ht ▸ State.inv_raiseCmd h _

/-- A reset gives the invariant, from any state. -/
theorem launch_gives_inv {bytes : List Byte} {s t : State} (ht : launch bytes s = .next t) : t.inv := by
  unfold launch at ht
  split at ht
  · rename_i hb
    rw [Host.Outcome.next.injEq] at ht
    exact ht ▸ State.reset_inv_of_src (Source.ofBytes_wf hb) s.port s.draws
  · cases ht

/-- A step keeps the invariant: the move it takes is a command word, a reset, or none. -/
theorem step_keeps_inv {s t : State} (h : s.inv) (ht : step s = .next t) : t.inv := by
  unfold step at ht
  split at ht
  · rw [Host.Outcome.next.injEq] at ht
    exact ht ▸ h
  · rename_i w rest hport
    have h' : State.inv { s with port := rest } := h
    exact runWord_keeps_inv h' ht
  · exact launch_gives_inv ht

/-- Settles O46, by the move the step takes and by how the command ends. -/
theorem everyStepKeepsTheInvariant : Obligations.EveryStepKeepsTheInvariant :=
  fun _ _ => step_keeps_inv

/-! ### The position and the look-ahead -/

/-- A reader in order stands within the source (10_state.md R21). -/
theorem Reader.pos_le_size {src : Source} {r : Reader} (h : r.inv src) : r.pos ≤ src.size := by
  obtain ⟨-, -, hsi, -, -⟩ := h
  unfold Reader.pos Source.size
  omega

/-- Settles O45: (I1) to (I3) after the step bound BC and SI, and with P = 8*SI - BC the bytes looked ahead. -/
theorem lookAheadIsBounded : Obligations.LookAheadIsBounded := by
  unfold Obligations.LookAheadIsBounded
  intro s t h ht hs
  obtain ⟨-, -, hwork⟩ := step_keeps_inv h ht
  obtain ⟨⟨hbc, -, hsi, -, -⟩, -⟩ := hwork hs
  refine ⟨hbc, ?_, hsi⟩
  unfold Reader.pos
  omega

/-- Settles O44: an error leaves the reader or the working state unspecified, and a procedure moves P forward. -/
theorem positionNeverMovesBack : Obligations.PositionNeverMovesBack := by
  unfold Obligations.PositionNeverMovesBack
  intro s t i h hs he ht
  have hwork := h.2.2 hs
  have hinv := (exec_keeps_inv h he).2.2 ht
  rw [← (exec_keeps_src_port he).1]
  refine ⟨?_, Reader.pos_le_size hinv.1⟩
  obtain ⟨-, -, rfl⟩ | ⟨-, ⟨hw, v, u, hp, rfl⟩ | ⟨-, c, -, rfl⟩ | ⟨c, rfl⟩⟩ := exec_next he
  · exact le_rfl
  · exact (procOf_working hw hp hwork).2
  · rw [State.scrambled_raiseData] at ht; cases ht
  · rw [State.raiseCmd_reader]

/-! ### The stops -/

/-- The range of `i` has a LENS cell that no command has written (10_state.md R32). -/
def readsUnwritten (i : Instr) (l : Lens) : Prop :=
  (∃ tbl off num, i = .build tbl off num ∧ ∃ k, k < num.toNat ∧ Lens.cell l (off.toNat + k) = none) ∨
    ∃ idx, i = .rdlens idx ∧ Lens.cell l idx.toNat = none

/-- The end of a command gives a state unless its procedure faults. -/
theorem finish_goes_on (a : Except Stop (Word × State)) (s : State) :
    (∃ t, finish a s = .next t) ∨ ∃ f, a = .error (.fault f) ∧ finish a s = .fault f := by
  rcases a with (c | c | f) | ⟨v, u⟩
  · exact .inl ⟨_, finish_data c s⟩
  · exact .inl ⟨_, finish_cmd c s⟩
  · exact .inr ⟨f, rfl, rfl⟩
  · exact .inl ⟨_, finish_ok v u s⟩

/-- A command gives a state unless it reads an unwritten LENS cell. -/
theorem exec_goes_on {s : State} (h : s.inv) (i : Instr) :
    (∃ t, exec i s = .next t) ∨ (exec i s = .fault .unwrittenLens ∧ readsUnwritten i s.lens) := by
  rw [exec_eq]
  split
  · rename_i hrun
    cases hw : i.wellFormed with
    | false => exact .inl ⟨_, rfl⟩
    | true =>
      rw [checked_legal]
      refine (finish_goes_on (procOf i s) s).imp_right ?_
      rintro ⟨f, hf, he⟩
      have hreader : i = .trees → s.reader.inv s.src := by
        rintro rfl
        have herr : s.err = false := by simpa [Instr.isObservation] using hrun
        exact (h.2.2 (State.scrambled_of_no_err herr)).1
      obtain ⟨rfl, hcell⟩ := procOf_fault hreader hf
      exact ⟨he, hcell⟩
  · exact .inl ⟨_, rfl⟩

/-- Settles O48, by the move the step takes: a legal word runs its command, an illegal one raises, and a reset launches or is refused. -/
theorem stepsGoOn : Obligations.StepsGoOn := by
  unfold Obligations.StepsGoOn
  intro s h
  unfold step
  split
  · exact .inl ⟨s, rfl⟩
  · rename_i w rest hport
    unfold runWord
    cases hd : decodeWord w with
    | error e => exact .inl ⟨_, rfl⟩
    | ok i =>
      have h' : State.inv { s with port := rest } := h
      exact (exec_goes_on h' i).imp_right fun ⟨hf, hcell⟩ => .inl ⟨hf, w, rest, i, hport, hd, hcell⟩
  · rename_i bytes rest hport
    unfold launch
    split
    · exact .inl ⟨_, rfl⟩
    · rename_i hb
      exact .inr (.inr ⟨rfl, bytes, rest, hport, by omega⟩)

end Sys2Proof.Machine
end

section
/-! PROOF. What the commands leave: reset, WRLENS, BUILD, the stops on unwritten cells, TABLE_INVALID, TREES, and the frame of every command. -/

namespace Sys2Proof.Machine

/-! ### Reset -/

/-- Right after reset every LENS cell is unwritten (10_state.md R35). -/
theorem Lens.cell_reset (i : Nat) : Lens.cell State.reset.lens i = none := by
  rw [State.reset_lens, Lens.cell]
  by_cases hi : i < Config.lensSize
  · simp [hi]
  · rw [Vector.getElem?_eq_none (by omega)]
    rfl

/-- Settles O10: the launch puts the reset values beside the host's source. -/
theorem resetStartsADecodeCall : Obligations.ResetStartsADecodeCall := by
  unfold Obligations.ResetStartsADecodeCall
  intro s bytes rest hport hb
  refine ⟨{ State.reset with src := Source.ofBytes bytes, port := rest, draws := s.draws },
    by simp only [step, hport, launch, if_pos hb], rfl, rfl, rfl, rfl, rfl, rfl, rfl, rfl, rfl, rfl, rfl, rfl, rfl, rfl,
    Lens.cell_reset, ?_, Source.read_ofBytes bytes, rfl⟩
  simp only [Source.ofBytes, BitVec.toNat_ofNat]
  exact Nat.mod_eq_of_lt hb

/-! ### Opening a command -/

/-- With ERR = 0 a legal command is its procedure (60_exceptions.md R233). -/
theorem exec_of_legal {i : Instr} {s : State} (he : s.err = false) (hw : i.wellFormed = true) :
    exec i s = finish (procOf i s) s := by
  rw [exec_eq, if_pos (.inr he), hw, checked_legal]

/-- A legal observation is its procedure, whatever ERR is (60_exceptions.md R237). -/
theorem exec_of_observation {i : Instr} {s : State} (ho : i.isObservation = true) (hw : i.wellFormed = true) :
    exec i s = finish (procOf i s) s := by
  rw [exec_eq, if_pos (.inl ho), hw, checked_legal]

/-! ### The table builder -/

/-- Settles O21: the procedure of WRLENS is one write. -/
theorem wrlensWritesOneCell : Obligations.WrlensWritesOneCell := by
  unfold Obligations.WrlensWritesOneCell
  intro s idx val he hidx
  have hw : (Instr.wrlens idx val).wellFormed = true := by
    simp only [Instr.wellFormed, Config.lensSize, decide_eq_true_eq]
    omega
  refine ⟨Lens.write s.lens idx.toNat (some val), exec_of_legal he hw, ?_, fun j hj => ?_⟩
  · rw [Lens.cell_write _ _ _ _ (by omega), if_pos rfl]
  · rw [Lens.cell_write _ _ _ _ (by omega), if_neg hj]

/-- The legality of BUILD (30_encoding.md R78). -/
theorem build_wellFormed {tbl : Tbl} {off num : BitVec 9} (hw : tbl.writable = true) (hn : num.toNat ≤ tbl.cap)
    (hr : off.toNat + num.toNat ≤ 320) : (Instr.build tbl off num).wellFormed = true := by
  simp only [Instr.wellFormed, Config.lensSize, hw, Bool.true_and, Bool.and_eq_true, decide_eq_true_eq]
  exact ⟨hn, hr⟩

/-- No table has 512 symbols (30_encoding.md R77). -/
theorem cap_lt_512 (tbl : Tbl) : tbl.cap < 512 := by
  cases tbl <;> decide

/-- Settles O22: BUILD is BUILDPROC over the values of its range. -/
theorem buildWritesItsTable : Obligations.BuildWritesItsTable := by
  unfold Obligations.BuildWritesItsTable
  intro s tbl off num ls he hw hn hr hls
  have hlen : ls.length = num.toNat := (Lens.cells_eq_some.mp hls).1
  have hcap := cap_lt_512 tbl
  have h512 : ls.length < 512 := by omega
  have hu := Table.used_build (s.table tbl) h512
  have hle := used_le_length ls
  refine ⟨(s.table tbl).build ls, BitVec.ofNat 32 ((s.table tbl).build ls).used, ?_, ?_, rfl,
    fun l hl => Table.countAt_build _ h512 hl, fun i hi => ?_⟩
  · rw [exec_of_legal he (build_wellFormed hw hn hr)]
    simp only [procOf, buildTableProc, Table.buildProc_eq _ hls, finish_ok]
    rfl
  · rw [BitVec.toNat_ofNat, Nat.mod_eq_of_lt (by omega)]
  · exact (Table.sym_build _ h512 (by omega)).2 i (by omega)

/-- A range with an unwritten cell cannot be read. -/
theorem Lens.cells_eq_none {l : Lens} {off num i : Nat} (hi : i < num) (h : Lens.cell l (off + i) = none) :
    Lens.cells l off num = none := by
  cases hc : Lens.cells l off num with
  | none => rfl
  | some ls =>
    obtain ⟨hlen, hcell⟩ := Lens.cells_eq_some.mp hc
    have := hcell i (by omega)
    rw [h] at this
    cases this

/-- Settles O24: BUILDPROC reads every cell of its range, and RDLENS its one cell. -/
theorem unwrittenLensCellsFault : Obligations.UnwrittenLensCellsFault := by
  unfold Obligations.UnwrittenLensCellsFault
  refine ⟨fun s tbl off num i he hw hn hr hi hcell => ?_, fun s idx hidx hcell => ?_⟩
  · rw [exec_of_legal he (build_wellFormed hw hn hr)]
    simp [procOf, buildTableProc, Table.buildProc, Lens.cells_eq_none hi hcell]
  · have hw : (Instr.rdlens idx).wellFormed = true := by
      simp only [Instr.wellFormed, Config.lensSize, decide_eq_true_eq]
      omega
    rw [exec_of_observation rfl hw]
    simp [procOf, rdlensProc, hcell]

/-! ### Tables that nothing has built -/

/-- A procedure that raises a CmdError from ERR = 0 writes ERR, ERR_CAUSE and the response alone (60_exceptions.md R236). -/
theorem exec_of_cmd_error {i : Instr} {s : State} {c : CmdCause} (he : s.err = false) (hw : i.wellFormed = true)
    (hp : procOf i s = .error (.cmd c)) :
    ∃ v k, exec i s = .next { s with
      err := true, errCause := c.code, response := some { status := .cmdError, result := v }, draws := k } := by
  rw [exec_of_legal he hw, hp, finish_cmd]
  refine ⟨Config.freeResponse s.draws, s.draws + 1, ?_⟩
  rw [State.raiseCmd, he]
  rfl

/-- Settles O30: both procedures test the valid bit first. -/
theorem unbuiltTablesAreRefused : Obligations.UnbuiltTablesAreRefused := by
  unfold Obligations.UnbuiltTablesAreRefused
  intro s tbl i he hv hw hi
  have hp : procOf i s = .error (.cmd .tableInvalid) := by
    obtain rfl | ⟨part, idx, rfl⟩ := hi
    · simp [procOf, decodeTableProc, hv]
    · simp [procOf, rdtabProc, hv]
  exact exec_of_cmd_error he hw hp

/-! ### TREES -/

/-- A command that ends with ERR = 0 is a procedure that returned. -/
theorem exec_next_of_no_err {i : Instr} {s t : State} (h : exec i s = .next t) (ht : t.err = false) :
    i.wellFormed = true ∧ ∃ v u, procOf i s = .ok (v, u) ∧ t = u.ok v := by
  obtain ⟨-, hs, rfl⟩ | ⟨-, hok | ⟨-, c, -, rfl⟩ | ⟨c, rfl⟩⟩ := exec_next h
  · rw [State.abort_err, hs] at ht; cases ht
  · exact hok
  · rw [State.raiseData_err] at ht; cases ht
  · rw [State.raiseCmd_err] at ht; cases ht

/-- A TREES that ends with ERR = 0 has parsed a descriptor: its fields, its position, and the three builds of its lengths. -/
theorem trees_of_no_err {s t : State} (hi : s.reader.inv s.src) (h : exec .trees s = .next t) (ht : t.err = false) :
    ∃ d, s.src.treesAt s.reader.pos = .ok d ∧ t.desc = d.desc ∧ t.reader.inv s.src ∧ t.reader.pos = d.pos ∧
      d.clLens.length = 19 ∧ d.lens.length = d.hlit + d.hdist ∧ t.clt = s.clt.build d.clLens ∧
      t.lt = s.lt.build (d.lens.take d.hlit) ∧ t.dt = s.dt.build (d.lens.drop d.hlit) := by
  obtain ⟨-, v, u, hp, rfl⟩ := exec_next_of_no_err h ht
  have hspec := treesProc_spec hi
  simp only [procOf] at hp
  cases hd : s.src.treesAt s.reader.pos with
  | error c =>
    simp only [hd, hp] at hspec
    cases hspec
  | ok d =>
    simp only [hd] at hspec
    obtain ⟨l, r, e, hr, pr, -, hcl, hlen, -⟩ := hspec
    rw [hp, Except.ok.injEq, Prod.mk.injEq] at e
    obtain ⟨-, rfl⟩ := e
    exact ⟨d, rfl, rfl, hr, pr, hcl, hlen, rfl, rfl, rfl⟩

/-- Settles O34: the fields are the parsed ones, each table is the build of as many lengths as it has room for, and the reader is in order at the end of the descriptor. -/
theorem treesLeavesLegalFieldsAndTables : Obligations.TreesLeavesLegalFieldsAndTables := by
  unfold Obligations.TreesLeavesLegalFieldsAndTables
  intro s t _ hi h ht
  obtain ⟨d, hd, hdesc, hr, hpos, hcl, hlen, hclt, hlt, hdt⟩ := trees_of_no_err hi h ht
  obtain ⟨hp, hhlit, hhdist, hhclen⟩ := Source.treesAt_pos hd
  obtain ⟨b1, b2, b3, b4, b5, b6⟩ := Source.treesAt_bounds hd
  have hsize := Reader.pos_le_size hr
  rw [hdesc, hclt, hlt, hdt]
  refine ⟨?_, ?_, ?_, rfl, rfl, rfl, Table.build_ok _ ?_ (by decide), Table.build_ok _ ?_ (by decide),
    Table.build_ok _ ?_ (by decide), by omega, hsize⟩
  · simp only [Parsed.desc, BitVec.toNat_ofNat]; omega
  · simp only [Parsed.desc, BitVec.toNat_ofNat]; omega
  · simp only [Parsed.desc, BitVec.toNat_ofNat]; omega
  · rw [List.length_take]; simp only [Config.ltCap]; omega
  · rw [List.length_drop]; simp only [Config.dtCap]; omega
  · simp only [Config.cltCap]; omega

/-! ### The frame of every command -/

/-- The working state that `i` does not write is in `t` as in `s` (10_state.md R21, R27, R29, R30, R32). -/
def frameKept (i : Instr) (s t : State) : Prop :=
  (i.isConsuming = false → i ≠ .align → t.reader = s.reader) ∧
    ((∀ idx val, i ≠ .wrlens idx val) → i ≠ .trees → t.lens = s.lens) ∧
    (i ≠ .trees → t.desc = s.desc) ∧
    ((∀ off num, i ≠ .build .lt off num) → i ≠ .trees → t.lt = s.lt) ∧
    ((∀ off num, i ≠ .build .dt off num) → i ≠ .trees → t.dt = s.dt) ∧
    ((∀ off num, i ≠ .build .clt off num) → i ≠ .trees → t.clt = s.clt) ∧
    t.table .flt = s.table .flt ∧ t.table .fdt = s.table .fdt

/-- A state with the same working state keeps every frame. -/
theorem frameKept_of_eq {i : Instr} {s t : State} (hreader : t.reader = s.reader) (hlens : t.lens = s.lens)
    (hdesc : t.desc = s.desc) (hlt : t.lt = s.lt) (hdt : t.dt = s.dt) (hclt : t.clt = s.clt) : frameKept i s t :=
  ⟨fun _ _ => hreader, fun _ _ => hlens, fun _ => hdesc, fun _ _ => hlt, fun _ _ => hdt, fun _ _ => hclt, rfl, rfl⟩

/-- A procedure that changes the reader alone keeps the frame of a command that may. -/
theorem frameKept_of_reader {i : Instr} {s u : State} (hi : i.isConsuming = true ∨ i = .align)
    (hu : u = { s with reader := u.reader }) : frameKept i s u := by
  rw [hu]
  refine ⟨fun hc ha => ?_, fun _ _ => rfl, fun _ => rfl, fun _ _ => rfl, fun _ _ => rfl, fun _ _ => rfl, rfl, rfl⟩
  obtain hi | hi := hi
  · rw [hi] at hc; cases hc
  · exact absurd hi ha

/-- A BUILD keeps all but the table it names. -/
theorem frameKept_of_build {tbl : Tbl} {off num : BitVec 9} {s u : State}
    (hu : u = s.setTable tbl (u.table tbl)) : frameKept (.build tbl off num) s u := by
  have hreader : u.reader = s.reader := by rw [hu, State.setTable_reader]
  have hlens : u.lens = s.lens := by rw [hu, State.setTable_lens]
  have hdesc : u.desc = s.desc := by rw [hu, State.setTable_desc]
  have htable : ∀ other, (∀ o n, Instr.build tbl off num ≠ .build other o n) → u.table other = s.table other := by
    intro other hne
    rw [hu]
    exact State.table_setTable_of_ne s _ fun e => hne off num (by rw [e])
  exact ⟨fun _ _ => hreader, fun _ _ => hlens, fun _ => hdesc, fun h _ => htable .lt h, fun h _ => htable .dt h,
    fun h _ => htable .clt h, rfl, rfl⟩

/-- A procedure that returns keeps the frame of its command. -/
theorem procOf_frameKept {i : Instr} {s u : State} {v : Word} (hw : i.wellFormed = true)
    (hp : procOf i s = .ok (v, u)) : frameKept i s u := by
  have hk := procOf_ok hp
  cases i with
  | getbit => exact frameKept_of_reader (.inl rfl) hk
  | readbits n base =>
    by_cases hn : n = 0
    · simp only [procOf, readbitsProc, if_pos hn, Except.ok.injEq, Prod.mk.injEq] at hp
      obtain ⟨-, rfl⟩ := hp
      exact frameKept_of_eq rfl rfl rfl rfl rfl rfl
    · exact frameKept_of_reader (.inl (by simpa [Instr.isConsuming] using hn)) hk
  | align => exact frameKept_of_reader (.inr rfl) hk
  | build tbl off num =>
    obtain hk | hk := hk
    · exact frameKept_of_build hk
    · simp [Instr.wellFormed, hk] at hw
  | decode tbl => exact frameKept_of_reader (.inl rfl) hk
  | trees =>
    exact ⟨fun h => (by cases h), fun _ h => absurd rfl h, fun h => absurd rfl h, fun _ h => absurd rfl h,
      fun _ h => absurd rfl h, fun _ h => absurd rfl h, rfl, rfl⟩
  | wrlens idx val =>
    simp only [procKeeps] at hk
    rw [hk]
    exact ⟨fun _ _ => rfl, fun h _ => absurd rfl (h idx val), fun _ => rfl, fun _ _ => rfl, fun _ _ => rfl,
      fun _ _ => rfl, rfl, rfl⟩
  | rdlens idx => rw [hk]; exact frameKept_of_eq rfl rfl rfl rfl rfl rfl
  | rdtab tbl part idx =>
    simp only [procKeeps] at hk
    rw [hk]
    exact frameKept_of_eq rfl rfl rfl rfl rfl rfl
  | rdreg reg => rw [hk]; exact frameKept_of_eq rfl rfl rfl rfl rfl rfl

/-- Observations raise no DataError, so one comes from ERR = 0 (60_exceptions.md R237). -/
theorem procOf_data_no_err {i : Instr} {s : State} {c : DataCause} (ho : i.isObservation = true ∨ s.err = false)
    (hp : procOf i s = .error (.data c)) : s.err = false :=
  ho.resolve_left fun ho => procOf_observation_no_data ho hp

/-- Settles O43: ABORTED and a CmdError write no working state, a DataError is shut out, and a procedure keeps its frame. -/
theorem commandsKeepWhatTheyDoNotWrite : Obligations.CommandsKeepWhatTheyDoNotWrite := by
  unfold Obligations.CommandsKeepWhatTheyDoNotWrite
  intro s t i h hcause
  show frameKept i s t
  obtain ⟨-, -, rfl⟩ | ⟨ho, ⟨hw, v, u, hp, rfl⟩ | ⟨-, c, hp, rfl⟩ | ⟨c, rfl⟩⟩ := exec_next h
  · exact frameKept_of_eq rfl rfl rfl rfl rfl rfl
  · have hu : frameKept i s u := procOf_frameKept hw hp
    exact hu
  · have := hcause rfl (procOf_data_no_err ho hp)
    cases c <;> simp [DataCause.code] at this
  · exact frameKept_of_eq (s.raiseCmd_reader c) (s.raiseCmd_lens c) (s.raiseCmd_desc c) (s.raiseCmd_lt c)
      (s.raiseCmd_dt c) (s.raiseCmd_clt c)

end Sys2Proof.Machine
end

section
/-! PROOF. The constant tables: FLT and FDT are the builds of the fixed lengths (41_tree_builder.md R140, R141). A build fixes every cell when every symbol is used, so it is enough to know the counts and the sorted symbols of the lengths. -/

namespace Sys2Proof.Machine

/-! ### Counts and sorted symbols of runs of one length -/

@[simp] theorem lengthCount_replicate (n : Nat) (v : BitVec 4) (l : Nat) :
    lengthCount (List.replicate n v) l = if l ≠ 0 ∧ v.toNat = l then n else 0 := by
  unfold lengthCount
  by_cases hl : l = 0 <;> simp [hl, List.countP_replicate]

theorem lengthCount_append (a b : List (BitVec 4)) (l : Nat) :
    lengthCount (a ++ b) l = lengthCount a l + lengthCount b l := by
  unfold lengthCount
  split <;> simp [List.countP_append]

/-- The symbols of length L of a run of one length: all of them or none. -/
theorem symsOfLength_replicate (n : Nat) (v : BitVec 4) (l : Nat) :
    symsOfLength (List.replicate n v) l = if v.toNat = l then List.range' 0 n else [] := by
  rw [symsOfLength, ← List.range_eq_range']
  have hget : ∀ i ∈ List.range (List.replicate n v).length, ((List.replicate n v)[i]?.getD 0) = v := by
    intro i hi
    simp at hi
    simp [hi]
  by_cases h : v.toNat = l
  · rw [List.filter_eq_self.mpr fun i hi => by rw [hget i hi]; simp [h]]
    simp [h]
  · rw [List.filter_eq_nil_iff.mpr fun i hi => by rw [hget i hi]; simp [h]]
    simp [h]

/-- The symbols of length L of two lists of lengths one after the other. -/
theorem symsOfLength_append_list (a b : List (BitVec 4)) (l : Nat) :
    symsOfLength (a ++ b) l = symsOfLength a l ++ (symsOfLength b l).map (a.length + ·) := by
  unfold symsOfLength
  rw [List.length_append, List.range_add, List.filter_append, List.filter_map]
  congr 1
  · apply List.filter_congr
    intro i hi
    rw [List.getElem?_append_left (List.mem_range.mp hi)]
  · congr 1
    apply List.filter_congr
    intro i _
    simp [List.getElem?_append_right]

/-- The code lengths in the order in which the symbols are sorted (41_tree_builder.md R133). -/
theorem range'_maxCodeLen :
    List.range' 1 Config.maxCodeLen = [1, 2, 3, 4, 5, 6, 7, 8, 9, 10, 11, 12, 13, 14, 15] := rfl

/-! ### When a build fixes the whole table -/

/-- A table is its valid bit, its counts and its symbols. -/
theorem Table.ext_fields {cap : Nat} {a b : Table cap} (hvalid : a.valid = b.valid) (hcount : a.count = b.count)
    (hsym : a.sym = b.sym) : a = b := by
  cases a
  cases b
  cases hvalid
  cases hcount
  cases hsym
  rfl

/-- A table that has the counts of the lengths and their sorted symbols, all cells used, is the build of any table from them. -/
theorem Table.build_eq_of_full {cap : Nat} {T : Table cap} {ls : List (BitVec 4)} (t : Table cap)
    (h512 : ls.length < 512) (hvalid : T.valid = true) (hcount : ∀ l < 16, T.countAt l = lengthCount ls l)
    (hfull : (sortedSyms ls).length = cap)
    (hsym : T.sym.toList = (sortedSyms ls).map (BitVec.ofNat 9)) : t.build ls = T := by
  have hused : sumBelow (lengthCount ls) 16 = cap := by rw [← length_sortedSyms, hfull]
  have hcells := (Table.sym_build t h512 (le_of_eq hused)).1
  have e1 : (t.build ls).count = T.count := by
    apply Vector.ext
    intro l hl
    have := (Table.countAt_build t h512 hl).trans (hcount l hl).symm
    apply BitVec.eq_of_toNat_eq
    simpa [Table.countAt, hl] using this
  have e2 : (t.build ls).sym = T.sym := by
    apply Vector.ext
    intro i hi
    have := hcells i (by omega)
    rw [Vector.getElem?_eq_getElem hi, Option.some.injEq] at this
    rw [this, ← Vector.getElem_toList (by simpa using hi)]
    simp [hsym]
  have e3 : (t.build ls).valid = T.valid := hvalid.symm
  exact Table.ext_fields e3 e1 e2

/-! ### FLT -/

theorem length_fixedLitLens : fixedLitLens.length = 288 := by
  simp only [fixedLitLens, List.length_append, List.length_replicate]

/-- The fixed literal/length code has 24 symbols of length 7, 152 of length 8 and 112 of length 9 (41_tree_builder.md R140). -/
theorem lengthCount_fixedLitLens : ∀ l < 16, Table.flt.countAt l = lengthCount fixedLitLens l := by
  intro l hl
  simp only [fixedLitLens, lengthCount_append, lengthCount_replicate]
  interval_cases l <;> rfl

/-- The symbols of each fixed literal/length code length (41_tree_builder.md R140). -/
theorem symsOfLength_fixedLitLens (l : Nat) : symsOfLength fixedLitLens l =
    if l = 7 then List.range' 256 24 else if l = 8 then List.range' 0 144 ++ List.range' 280 8
    else if l = 9 then List.range' 144 112 else [] := by
  simp only [fixedLitLens, symsOfLength_append_list, symsOfLength_replicate, List.length_replicate]
  by_cases h7 : l = 7
  · subst h7
    simp [List.map_add_range']
  by_cases h8 : l = 8
  · subst h8
    simp [List.map_add_range']
  by_cases h9 : l = 9
  · subst h9
    simp [List.map_add_range']
  · simp [h7, h8, h9, Ne.symm]

/-- Sorted by length, the literals and lengths stand in four runs (41_tree_builder.md R140). -/
theorem sortedSyms_fixedLitLens : sortedSyms fixedLitLens =
    List.range' 256 24 ++ List.range' 0 144 ++ (List.range' 280 8 ++ List.range' 144 112) := by
  simp [sortedSyms, range'_maxCodeLen, symsOfLength_fixedLitLens]

/-- FLT is the build of the fixed literal/length code lengths, over any table. -/
theorem Table.build_fixedLitLens (t : Table Config.ltCap) : t.build fixedLitLens = Table.flt := by
  refine Table.build_eq_of_full t (by rw [length_fixedLitLens]; omega) rfl lengthCount_fixedLitLens ?_ ?_
  · rw [sortedSyms_fixedLitLens]
    simp only [List.length_append, List.length_range']
  · rw [sortedSyms_fixedLitLens]
    rfl

/-- The cells of FLT in their four runs (41_tree_builder.md R140). -/
theorem Table.symAt_flt (i : Nat) (hi : i < 288) : (Table.flt.symAt i).toNat =
    if i < 24 then 256 + i else if i < 168 then i - 24 else if i < 176 then 112 + i else i - 32 := by
  have hget : Table.flt.symAt i = fltSyms[i]?.getD (Config.freeBeyond i) := by simp [Table.symAt, Table.flt]
  simp only [hget, fltSyms, List.getElem?_map, List.getElem?_append, List.length_append, List.length_range']
  split_ifs <;> simp (disch := omega) [List.getElem?_range'] <;> omega

/-- Settles O25: the build is FLT, whose cells stand in four runs; the code of a cell is its place in its group, past the first code of the length. -/
theorem fltIsTheFixedTable : Obligations.FltIsTheFixedTable := by
  unfold Obligations.FltIsTheFixedTable
  have f7 : firstCode Table.flt.countAt 7 = 0 ∧ sumBelow Table.flt.countAt 7 = 0 := by decide
  have f8 : firstCode Table.flt.countAt 8 = 48 ∧ sumBelow Table.flt.countAt 8 = 24 := by decide
  have f9 : firstCode Table.flt.countAt 9 = 400 ∧ sumBelow Table.flt.countAt 9 = 176 := by decide
  refine ⟨Table.build_fixedLitLens, by decide, by decide, fun i hi => ?_, fun i hi => ?_, fun i hi => ?_,
    fun i hi => ?_, fun i => ?_, fun i => ?_, fun i => ?_, fun i => ?_⟩
  · rw [Table.symAt_flt _ (by omega), if_pos hi]
  · rw [Table.symAt_flt _ (by omega), if_neg (by omega), if_pos (by omega)]
    omega
  · rw [Table.symAt_flt _ (by omega), if_neg (by omega), if_neg (by omega), if_pos (by omega)]
    omega
  · rw [Table.symAt_flt _ (by omega), if_neg (by omega), if_neg (by omega), if_neg (by omega)]
    omega
  · omega
  · omega
  · omega
  · omega

/-! ### FDT -/

/-- Every symbol of the fixed distance code has length 5 (41_tree_builder.md R141). -/
theorem symsOfLength_fixedDistLens (l : Nat) :
    symsOfLength fixedDistLens l = if l = 5 then List.range' 0 32 else [] := by
  rw [fixedDistLens, symsOfLength_replicate]
  simp [eq_comm]

theorem sortedSyms_fixedDistLens : sortedSyms fixedDistLens = List.range' 0 32 := by
  simp [sortedSyms, range'_maxCodeLen, symsOfLength_fixedDistLens]

theorem lengthCount_fixedDistLens : ∀ l < 16, Table.fdt.countAt l = lengthCount fixedDistLens l := by
  intro l hl
  rw [fixedDistLens, lengthCount_replicate]
  interval_cases l <;> rfl

/-- FDT is the build of the fixed distance code lengths, over any table. -/
theorem Table.build_fixedDistLens (t : Table Config.dtCap) : t.build fixedDistLens = Table.fdt := by
  refine Table.build_eq_of_full t ?_ rfl lengthCount_fixedDistLens ?_ ?_
  · rw [fixedDistLens, List.length_replicate]; omega
  · rw [sortedSyms_fixedDistLens, List.length_range']
  · rw [sortedSyms_fixedDistLens]
    rfl

/-- Cell i of FDT holds i (41_tree_builder.md R141). -/
theorem Table.symAt_fdt (i : Nat) (hi : i < 32) : (Table.fdt.symAt i).toNat = i := by
  have hget : Table.fdt.symAt i = fdtSyms[i]?.getD (Config.freeBeyond i) := by simp [Table.symAt, Table.fdt]
  rw [hget, fdtSyms, List.getElem?_map, List.getElem?_range' hi]
  simp
  omega

/-- A table has no counts past length 15. -/
theorem Table.countAt_of_le {cap : Nat} (t : Table cap) {l : Nat} (hl : 16 ≤ l) : t.countAt l = 0 := by
  rw [Table.countAt, Vector.getElem?_eq_none hl]
  rfl

/-- Settles O26: the build is FDT, and its one length starts at code 0 and place 0. -/
theorem fdtIsTheFixedTable : Obligations.FdtIsTheFixedTable := by
  unfold Obligations.FdtIsTheFixedTable
  have f5 : firstCode Table.fdt.countAt 5 = 0 ∧ sumBelow Table.fdt.countAt 5 = 0 := by decide
  refine ⟨Table.build_fixedDistLens, rfl, fun l hl => ?_, Table.symAt_fdt, fun d => by omega⟩
  by_cases h16 : l < 16
  · rw [lengthCount_fixedDistLens l h16, fixedDistLens, lengthCount_replicate, if_neg]
    rintro ⟨-, h5⟩
    exact hl h5.symm
  · exact Table.countAt_of_le _ (by omega)

end Sys2Proof.Machine
end

section
/-! PROOF. Field reads (20_memory.md R55, R57, R60; 40_bitstream_reader.md R103, R104): with the bits there READBITS returns the field, without them it raises EOI, and one read is two reads of its parts. -/

namespace Sys2Proof.Machine

/-! ### READBITS -/

/-- A field of at most 16 bits and a 16-bit base add up without a carry out of RESULT (30_encoding.md R81). -/
theorem toNat_fieldAt_add_base (src : Source) (p : Nat) {n : Nat} (base : BitVec 16) (hn : n ≤ 16) :
    (BitVec.ofNat 32 (src.fieldAt p n + base.toNat)).toNat = src.fieldAt p n + base.toNat := by
  have hfield : src.fieldAt p n < 2 ^ 16 := (src.fieldAt_lt n p).trans_le (Nat.pow_le_pow_right (by omega) hn)
  have hbase := base.isLt
  rw [BitVec.toNat_ofNat, Nat.mod_eq_of_lt (by omega)]

/-- With ERR = 0, READBITS of 1 to 16 bits is a field read (40_bitstream_reader.md R104). -/
theorem exec_readbits {s : State} {n : BitVec 5} (base : BitVec 16) (he : s.err = false) (h1 : 1 ≤ n.toNat)
    (h16 : n.toNat ≤ 16) : exec (.readbits n base) s = finish (readField n.toNat base.toNat s) s := by
  have hn : n ≠ 0 := by
    rintro rfl
    simp at h1
  have hw : (Instr.readbits n base).wellFormed = true := decide_eq_true h16
  rw [exec_of_legal he hw]
  simp only [procOf, readbitsProc, if_neg hn]

/-- Settles O14: the field read runs on the abstract stream, and its look-ahead is that of REFILL. -/
theorem readbitsReturnsTheField : Obligations.ReadbitsReturnsTheField := by
  unfold Obligations.ReadbitsReturnsTheField
  intro s n base he hi h1 h16 hp
  obtain ⟨r, hr, hinv, hpos⟩ := Reader.readf_ok base.toNat hi (by omega) hp
  refine ⟨r, _, ?_, toNat_fieldAt_add_base s.src s.reader.pos base h16, hinv, hpos,
    Reader.readf_tookAfterRefill hi hr hinv hpos⟩
  rw [exec_readbits base he h1 h16]
  simp only [readField, hr, finish_ok]
  rfl

/-- Without n bits left, READBITS raises DataError(EOI) (20_memory.md R60). -/
theorem exec_readbits_eoi {s : State} {n : BitVec 5} (base : BitVec 16) (he : s.err = false) (hi : s.reader.inv s.src)
    (h1 : 1 ≤ n.toNat) (h16 : n.toNat ≤ 16) (hp : s.src.size < s.reader.pos + n.toNat) :
    exec (.readbits n base) s = .next (s.raiseData .eoi) := by
  rw [exec_readbits base he h1 h16]
  simp only [readField, Reader.readf_eoi base.toNat hi (by omega) hp, finish_data]

/-- A READBITS that ends with ERR = 1 ran out of stream bits. -/
theorem size_lt_of_readbits_err {s t : State} {n : BitVec 5} {base : BitVec 16} (he : s.err = false)
    (hi : s.reader.inv s.src) (h1 : 1 ≤ n.toNat) (h16 : n.toNat ≤ 16) (ht : exec (.readbits n base) s = .next t)
    (hterr : t.err = true) : s.src.size < s.reader.pos + n.toNat := by
  by_contra hp
  obtain ⟨r, v, hexec, -⟩ := readbitsReturnsTheField s n base he hi h1 h16 (by omega)
  rw [hexec, Host.Outcome.next.injEq] at ht
  subst ht
  rw [he] at hterr
  cases hterr

/-- Settles O16: without the bits the read raises EOI, and with them it returns. -/
theorem readsFailExactlyAtTheEnd : Obligations.ReadsFailExactlyAtTheEnd := by
  unfold Obligations.ReadsFailExactlyAtTheEnd
  intro s n base he hi h1 h16
  constructor
  · constructor
    · rintro ⟨t, v, ht, hterr, -, -⟩
      exact size_lt_of_readbits_err he hi h1 h16 ht hterr
    · intro hp
      exact ⟨_, _, exec_readbits_eoi base he hi h1 h16 hp, rfl, rfl, rfl⟩
  · constructor
    · rintro ⟨t, ht, hterr⟩
      exact size_lt_of_readbits_err he hi h1 h16 ht hterr
    · intro hp
      exact ⟨_, exec_readbits_eoi base he hi h1 h16 hp, rfl⟩

/-! ### GETBIT -/

/-- GETBIT and READBITS 1, 0 have one procedure and are both legal (40_bitstream_reader.md R103). -/
theorem exec_getbit_eq_readbits_one (s : State) : exec .getbit s = exec (.readbits 1 0) s := by
  have hproc : procOf .getbit s = procOf (.readbits 1 0) s := rfl
  have hlegal : Instr.getbit.wellFormed = (Instr.readbits 1 0).wellFormed := rfl
  have hkind : Instr.getbit.isObservation = (Instr.readbits 1 0).isObservation := rfl
  simp only [exec_eq, checked, hproc, hlegal, hkind]

/-- The field of one bit is the stream bit (20_memory.md R55). -/
theorem Source.fieldAt_one (src : Source) (p : Nat) : src.fieldAt p 1 = (src.bit p).toNat := rfl

/-- Settles O12: GETBIT is READBITS 1, 0, and its field is one stream bit. -/
theorem getbitReturnsTheNextStreamBit : Obligations.GetbitReturnsTheNextStreamBit := by
  unfold Obligations.GetbitReturnsTheNextStreamBit
  intro s he hi hp
  rw [exec_getbit_eq_readbits_one, ← Source.fieldAt_one]
  exact readbitsReturnsTheField s 1 0 he hi (by decide) (by decide) hp

/-! ### Reads in two parts -/

/-- A field is its first a bits, and the rest above them (20_memory.md R57). -/
theorem Source.fieldAt_add (src : Source) (a b : Nat) :
    ∀ p, src.fieldAt p (a + b) = src.fieldAt p a + src.fieldAt (p + a) b * 2 ^ a := by
  induction a with
  | zero => intro p; simp [Source.fieldAt]
  | succ a ih =>
    intro p
    calc src.fieldAt p (a + 1 + b)
        = (src.bit p).toNat + 2 * src.fieldAt (p + 1) (a + b) := by rw [Nat.add_right_comm, Source.fieldAt]
      _ = (src.bit p).toNat + 2 * (src.fieldAt (p + 1) a + src.fieldAt (p + 1 + a) b * 2 ^ a) := by rw [ih]
      _ = src.fieldAt p (a + 1) + src.fieldAt (p + (a + 1)) b * 2 ^ (a + 1) := by
        rw [Source.fieldAt, Nat.add_comm a 1, ← Nat.add_assoc]
        ring

/-- Settles O17: the field splits, and the second read starts where the first one ends. -/
theorem splitReadsCompose : Obligations.SplitReadsCompose := by
  unfold Obligations.SplitReadsCompose
  refine ⟨fun s a b he hi ha hb hab hp => ?_, exec_getbit_eq_readbits_one⟩
  have hsum : (a + b).toNat = a.toNat + b.toNat := by
    rw [BitVec.toNat_add, Nat.mod_eq_of_lt (by omega)]
  obtain ⟨r, v, ht, hv, -, hpos, -⟩ :=
    readbitsReturnsTheField s (a + b) 0 he hi (by omega) (by omega) (by omega)
  obtain ⟨r1, v1, ht1, hv1, hi1, hpos1, -⟩ := readbitsReturnsTheField s a 0 he hi ha (by omega) (by omega)
  obtain ⟨r2, v2, ht2, hv2, -, hpos2, -⟩ :=
    readbitsReturnsTheField { s with reader := r1, result := v1, response := some { status := .ok, result := v1 } }
      b 0 he hi1 hb (by omega) (by simp only [hpos1]; omega)
  refine ⟨_, _, _, ht, ht1, ht2, he, he, ?_, ?_⟩
  · show v.toNat = v1.toNat + v2.toNat * 2 ^ a.toNat
    rw [hv, hv1, hv2, hsum, Source.fieldAt_add, hpos1]
    simp
  · show r.pos = r2.pos
    rw [hpos, hpos2, hpos1, hsum, Nat.add_assoc]

end Sys2Proof.Machine
end

section
/-! PROOF. The command words (30_encoding.md R72 to R84): what stands in each field of a command's word, and that the decoder, the encoder and the opcode map agree on it. -/

namespace Sys2Proof

/-! ### The fields of a word -/

/-- Two parts make up a value when they are its upper and its lower bits. -/
theorem append_eq_iff {m n : Nat} {a : BitVec m} {b : BitVec n} {x : BitVec (m + n)} :
    a ++ b = x ↔ a = x.extractLsb' n m ∧ b = x.extractLsb' 0 n := by
  constructor
  · rintro rfl
    exact ⟨BitVec.extractLsb'_append_eq_left.symm, BitVec.extractLsb'_append_eq_right.symm⟩
  · rintro ⟨rfl, rfl⟩
    exact BitVec.extractLsb'_append_extractLsb'

/-- The fields of the word `w` are those of the command: its OP, its operands, and the must-be-zero bits of its format
(30_encoding.md R73 to R78), high bits first. -/
def Instr.fieldsIn (w : Word) : Instr → Prop
  | .getbit => field w 28 4 = 0x1 ∧ field w 0 28 = 0
  | .readbits n base => field w 28 4 = 0x2 ∧ field w 21 7 = 0 ∧ field w 16 5 = n ∧ field w 0 16 = base
  | .align => field w 28 4 = 0x3 ∧ field w 0 28 = 0
  | .build tbl off num =>
      field w 28 4 = 0x4 ∧ field w 27 1 = 0 ∧ field w 24 3 = tbl.sel ∧ field w 18 6 = 0 ∧ field w 9 9 = off ∧
        field w 0 9 = num
  | .decode tbl => field w 28 4 = 0x5 ∧ field w 27 1 = 0 ∧ field w 24 3 = tbl.sel ∧ field w 0 24 = 0
  | .trees => field w 28 4 = 0x6 ∧ field w 0 28 = 0
  | .wrlens idx val =>
      field w 28 4 = 0x7 ∧ field w 25 3 = 0 ∧ field w 16 9 = idx ∧ field w 4 12 = 0 ∧ field w 0 4 = val
  | .rdlens idx => field w 28 4 = 0x8 ∧ field w 25 3 = 0 ∧ field w 16 9 = idx ∧ field w 0 16 = 0
  | .rdtab tbl part idx =>
      field w 28 4 = 0x9 ∧ field w 27 1 = 0 ∧ field w 24 3 = tbl.sel ∧ field w 23 1 = part.bit ∧ field w 9 14 = 0 ∧
        field w 0 9 = idx
  | .rdreg reg => field w 28 4 = 0xA ∧ field w 4 24 = 0 ∧ field w 0 4 = reg.sel

/-- The must-be-zero bits 23:18 of BUILD are its PART bit and the 5 bits below. -/
theorem field_18_6_eq_zero {w : Word} : field w 18 6 = 0 ↔ field w 23 1 = 0 ∧ field w 18 5 = 0 := by
  have h : field w 23 1 ++ field w 18 5 = field w 18 6 := BitVec.extractLsb'_append_extractLsb'_eq_extractLsb' rfl
  rw [← h, append_eq_iff]
  simp

/-- The encoder puts each field where the formats put it (30_encoding.md R73 to R76). -/
theorem encode_eq_iff {i : Instr} {w : Word} : encode i = w ↔ i.fieldsIn w := by
  cases i with
  | build tbl off num =>
    unfold encode
    repeat rw [append_eq_iff]
    rw [Instr.fieldsIn, field_18_6_eq_zero]
    simp [field, eq_comm, and_assoc]
  | _ =>
    unfold encode
    repeat rw [append_eq_iff]
    simp [Instr.fieldsIn, field, eq_comm]

/-! ### The decoder -/

/-- TSEL and its table name each other (30_encoding.md R77). -/
theorem Tbl.ofSel_eq_some {sel : BitVec 3} {tbl : Tbl} : Tbl.ofSel sel = some tbl ↔ sel = tbl.sel := by
  cases tbl <;> revert sel <;> decide

/-- PART and its bit name each other (30_encoding.md R75). -/
theorem Part.ofBit_eq {b : BitVec 1} {part : Part} : Part.ofBit b = part ↔ b = part.bit := by
  cases part <;> revert b <;> decide

/-- RSEL and its register name each other (44_observation.md R214). -/
theorem Reg.ofSel_eq_some {sel : BitVec 4} {reg : Reg} : Reg.ofSel sel = some reg ↔ sel = reg.sel := by
  cases reg <;> revert sel <;> decide

/-- Each RSEL of R214 is the selector of a register. -/
theorem Reg.exists_sel_eq {rsel : BitVec 4} (h : rsel.toNat ≤ 8) : ∃ reg : Reg, reg.sel = rsel := by
  have hsel : (Reg.ofSel rsel).isSome = true := by
    revert rsel
    decide
  obtain ⟨reg, hreg⟩ := Option.isSome_iff_exists.mp hsel
  exact ⟨reg, (Reg.ofSel_eq_some.mp hreg).symm⟩

/-- The legality test passes its command on unchanged (30_encoding.md R78). -/
theorem legalOnly_eq_ok {i j : Instr} : legalOnly j = .ok i ↔ j.wellFormed = true ∧ j = i := by
  unfold legalOnly
  split <;> simp_all

/-- A test of must-be-zero bits gives a command only where it passes. -/
theorem guard_eq_ok {p : Prop} [Decidable p] {x : Except Reject Instr} {e : Reject} {i : Instr} :
    (if p then x else .error e) = .ok i ↔ p ∧ x = .ok i := by
  split <;> simp_all

/-- A format-T word gives a command only for a TSEL of R77. -/
theorem withTable_eq_ok {w : Word} {mk : Tbl → Instr} {i : Instr} :
    withTable w mk = .ok i ↔ ∃ tbl, field w 24 3 = tbl.sel ∧ (mk tbl).wellFormed = true ∧ mk tbl = i := by
  simp only [← Tbl.ofSel_eq_some, ← legalOnly_eq_ok]
  unfold withTable
  cases Tbl.ofSel (field w 24 3) <;> simp

/-- Format S gives a command only for an RSEL of R214. -/
theorem decodeRdreg_eq_ok {w : Word} {i : Instr} :
    decodeRdreg w = .ok i ↔ field w 4 24 = 0 ∧ ∃ reg, field w 0 4 = reg.sel ∧ .rdreg reg = i := by
  simp only [← Reg.ofSel_eq_some, decodeRdreg, guard_eq_ok]
  cases Reg.ofSel (field w 0 4) <;> simp [legalOnly_eq_ok, Instr.wellFormed]

/-- The decoder gives a command only for a word with the command's fields. -/
theorem fieldsIn_of_decodeWord {i : Instr} {w : Word} (h : decodeWord w = .ok i) :
    i.wellFormed = true ∧ i.fieldsIn w := by
  unfold decodeWord at h
  split at h
  case h_1 hop | h_3 hop | h_6 hop =>
    obtain ⟨h0, hw, rfl⟩ := by simpa only [decodeN, guard_eq_ok, legalOnly_eq_ok] using h
    exact ⟨hw, BitVec.eq_of_toNat_eq hop, h0⟩
  case h_2 hop =>
    obtain ⟨h21, hw, rfl⟩ := by simpa only [decodeReadbits, guard_eq_ok, legalOnly_eq_ok] using h
    exact ⟨hw, BitVec.eq_of_toNat_eq hop, h21, rfl, rfl⟩
  case h_4 hop =>
    obtain ⟨⟨h27, h18⟩, tbl, htbl, hw, rfl⟩ := by simpa only [decodeBuild, guard_eq_ok, withTable_eq_ok] using h
    exact ⟨hw, BitVec.eq_of_toNat_eq hop, h27, htbl, h18, rfl, rfl⟩
  case h_5 hop =>
    obtain ⟨⟨h27, h0⟩, tbl, htbl, hw, rfl⟩ := by simpa only [decodeDecode, guard_eq_ok, withTable_eq_ok] using h
    exact ⟨hw, BitVec.eq_of_toNat_eq hop, h27, htbl, h0⟩
  case h_7 hop =>
    obtain ⟨⟨h25, h4⟩, hw, rfl⟩ := by simpa only [decodeWrlens, guard_eq_ok, legalOnly_eq_ok] using h
    exact ⟨hw, BitVec.eq_of_toNat_eq hop, h25, rfl, h4, rfl⟩
  case h_8 hop =>
    obtain ⟨⟨h25, h0⟩, hw, rfl⟩ := by simpa only [decodeRdlens, guard_eq_ok, legalOnly_eq_ok] using h
    exact ⟨hw, BitVec.eq_of_toNat_eq hop, h25, rfl, h0⟩
  case h_9 hop =>
    obtain ⟨⟨h27, h9⟩, tbl, htbl, hw, rfl⟩ := by simpa only [decodeRdtab, guard_eq_ok, withTable_eq_ok] using h
    exact ⟨hw, BitVec.eq_of_toNat_eq hop, h27, htbl, Part.ofBit_eq.mp rfl, h9, rfl⟩
  case h_10 hop =>
    obtain ⟨h4, reg, hreg, rfl⟩ := decodeRdreg_eq_ok.mp h
    exact ⟨rfl, BitVec.eq_of_toNat_eq hop, h4, hreg⟩
  case h_11 => cases h

/-- The decoder gives a legal command for every word with its fields. -/
theorem decodeWord_of_fieldsIn {i : Instr} {w : Word} (hw : i.wellFormed = true) (h : i.fieldsIn w) :
    decodeWord w = .ok i := by
  cases i with
  | getbit | align | trees =>
    obtain ⟨hop, h0⟩ := h
    simp [decodeWord, hop, decodeN, h0, legalOnly_eq_ok, hw]
  | readbits n base =>
    obtain ⟨hop, h21, rfl, rfl⟩ := h
    simp [decodeWord, hop, decodeReadbits, h21, legalOnly_eq_ok, hw]
  | build tbl off num =>
    obtain ⟨hop, h27, htbl, h18, rfl, rfl⟩ := h
    simp [decodeWord, hop, decodeBuild, h27, h18, withTable, Tbl.ofSel_eq_some.mpr htbl, legalOnly_eq_ok, hw]
  | decode tbl =>
    obtain ⟨hop, h27, htbl, h0⟩ := h
    simp [decodeWord, hop, decodeDecode, h27, h0, withTable, Tbl.ofSel_eq_some.mpr htbl, legalOnly_eq_ok, hw]
  | wrlens idx val =>
    obtain ⟨hop, h25, rfl, h4, rfl⟩ := h
    simp [decodeWord, hop, decodeWrlens, h25, h4, legalOnly_eq_ok, hw]
  | rdlens idx =>
    obtain ⟨hop, h25, rfl, h0⟩ := h
    simp [decodeWord, hop, decodeRdlens, h25, h0, legalOnly_eq_ok, hw]
  | rdtab tbl part idx =>
    obtain ⟨hop, h27, htbl, hpart, h9, rfl⟩ := h
    simp [decodeWord, hop, decodeRdtab, h27, h9, withTable, Tbl.ofSel_eq_some.mpr htbl, Part.ofBit_eq.mpr hpart,
      legalOnly_eq_ok, hw]
  | rdreg reg =>
    obtain ⟨hop, h4, hreg⟩ := h
    simp [decodeWord, hop, decodeRdreg_eq_ok, h4, hreg]

/-- The decoder accepts exactly the encodings of the well-formed commands. -/
theorem decodeWord_eq_ok {i : Instr} {w : Word} : decodeWord w = .ok i ↔ i.wellFormed = true ∧ encode i = w := by
  rw [encode_eq_iff]
  exact ⟨fieldsIn_of_decodeWord, fun ⟨hw, h⟩ => decodeWord_of_fieldsIn hw h⟩

/-- Settles O3: the word of a command has the command's fields, and the decoder reads them back. -/
theorem decodeOfEncode : Obligations.DecodeOfEncode := fun _ hw => decodeWord_eq_ok.mpr ⟨hw, rfl⟩

/-- Settles O4: the fields of a word fill it, so a word that decodes is the encoding of its command. -/
theorem encodeOfDecode : Obligations.EncodeOfDecode := fun _ _ h => decodeWord_eq_ok.mp h

/-- Settles O1: the thirteen commands are legal and have these words, so the words decode to them. -/
theorem specExampleWordsDecodeAndEncode : Obligations.SpecExampleWordsDecodeAndEncode := by
  unfold Obligations.SpecExampleWordsDecodeAndEncode
  intro p hp
  have hword : p.2.wellFormed = true ∧ encode p.2 = p.1 := by
    revert p
    decide
  exact ⟨decodeWord_eq_ok.mpr hword, hword.2⟩

/-! ### The opcode map (30_encoding.md R78, R79) -/

/-- A mask of ones keeps its field. -/
theorem and_of_eq_allOnes {n : Nat} {x m : BitVec n} (h : m = BitVec.allOnes n) : x &&& m = x := by
  rw [h, BitVec.and_allOnes]

/-- A masked word is the word of a command when its fields are. -/
theorem and_eq_encode_iff {i : Instr} {w mask : Word} : w &&& mask = encode i ↔ i.fieldsIn (w &&& mask) :=
  eq_comm.trans encode_eq_iff

/-! Match and mask of the rows with operands: the pattern is the word of the command whose operands are all 0, so a
word meets the row when its OP and its must-be-zero bits do. -/

theorem readbitsRow_match {w : Word} : w &&& 0xFFE00000#32 = 0x20000000#32 ↔ field w 28 4 = 0x2 ∧ field w 21 7 = 0 :=
  (and_eq_encode_iff (i := .readbits 0 0)).trans <| by
    simp [Instr.fieldsIn, field, BitVec.extractLsb'_and, and_of_eq_allOnes]

theorem buildRow_match {w : Word} :
    w &&& 0xF8FC0000#32 = 0x40000000#32 ↔ field w 28 4 = 0x4 ∧ field w 27 1 = 0 ∧ field w 18 6 = 0 :=
  (and_eq_encode_iff (i := .build .lt 0 0)).trans <| by
    simp [Instr.fieldsIn, field, BitVec.extractLsb'_and, and_of_eq_allOnes, Tbl.sel]

theorem decodeRow_match {w : Word} :
    w &&& 0xF8FFFFFF#32 = 0x50000000#32 ↔ field w 28 4 = 0x5 ∧ field w 27 1 = 0 ∧ field w 0 24 = 0 :=
  (and_eq_encode_iff (i := .decode .lt)).trans <| by
    simp [Instr.fieldsIn, field, BitVec.extractLsb'_and, and_of_eq_allOnes, Tbl.sel]

theorem wrlensRow_match {w : Word} :
    w &&& 0xFE00FFF0#32 = 0x70000000#32 ↔ field w 28 4 = 0x7 ∧ field w 25 3 = 0 ∧ field w 4 12 = 0 :=
  (and_eq_encode_iff (i := .wrlens 0 0)).trans <| by
    simp [Instr.fieldsIn, field, BitVec.extractLsb'_and, and_of_eq_allOnes]

theorem rdlensRow_match {w : Word} :
    w &&& 0xFE00FFFF#32 = 0x80000000#32 ↔ field w 28 4 = 0x8 ∧ field w 25 3 = 0 ∧ field w 0 16 = 0 :=
  (and_eq_encode_iff (i := .rdlens 0)).trans <| by
    simp [Instr.fieldsIn, field, BitVec.extractLsb'_and, and_of_eq_allOnes]

theorem rdtabRow_match {w : Word} :
    w &&& 0xF87FFE00#32 = 0x90000000#32 ↔ field w 28 4 = 0x9 ∧ field w 27 1 = 0 ∧ field w 9 14 = 0 :=
  (and_eq_encode_iff (i := .rdtab .lt .count 0)).trans <| by
    simp [Instr.fieldsIn, field, BitVec.extractLsb'_and, and_of_eq_allOnes, Tbl.sel, Part.bit]

theorem rdregRow_match {w : Word} : w &&& 0xFFFFFFF0#32 = 0xA0000000#32 ↔ field w 28 4 = 0xA ∧ field w 4 24 = 0 :=
  (and_eq_encode_iff (i := .rdreg .si)).trans <| by
    simp [Instr.fieldsIn, field, BitVec.extractLsb'_and, and_of_eq_allOnes, Reg.sel]

/-- A row without operands fixes the whole word. -/
theorem fixedRow_match {i : Instr} {w : Word} : w &&& 0xFFFFFFFF#32 = encode i ↔ i.fieldsIn w := by
  rw [and_of_eq_allOnes (by decide), eq_comm, encode_eq_iff]

/-- The bits of the opcode map are the fields of the decoder (00_scope.md R11). -/
theorem bitsOf_eq_toNat_field (w : Word) (hi lo : Nat) :
    Machine.bitsOf w hi lo = (field w lo (hi + 1 - lo)).toNat := by
  rw [field, BitVec.extractLsb'_toNat, Nat.shiftRight_eq_div_pow, Machine.bitsOf]

/-! The selectors of the opcode map: TSEL 0 to 4, RSEL 0 to 8, PART. -/

theorem tablesBySel_eq_some {sel : BitVec 3} {tbl : Tbl} :
    Machine.tablesBySel[sel.toNat]? = some tbl ↔ sel = tbl.sel := by
  cases tbl <;> revert sel <;> decide

theorem registersBySel_eq_some {sel : BitVec 4} {reg : Reg} :
    Machine.registersBySel[sel.toNat]? = some reg ↔ sel = reg.sel := by
  cases reg <;> revert sel <;> decide

theorem partBySel_eq {b : BitVec 1} {part : Part} :
    (if b.toNat = 0 then Part.count else .sym) = part ↔ b = part.bit := by
  cases part <;> revert b <;> decide

theorem Tbl.sel_le_two_iff {tbl : Tbl} : tbl.sel.toNat ≤ 2 ↔ tbl.writable = true := by
  cases tbl <;> decide

theorem Tbl.sel_le_four (tbl : Tbl) : tbl.sel.toNat ≤ 4 := by
  cases tbl <;> decide

theorem Reg.sel_le_eight (reg : Reg) : reg.sel.toNat ≤ 8 := by
  cases reg <;> decide

theorem capOf_sel (tbl : Tbl) : Machine.capOf tbl.sel.toNat = tbl.cap := by
  cases tbl <;> rfl

/-- The cell indices that RDTAB may name (30_encoding.md R78). -/
theorem rdtab_legal_iff {tbl : Tbl} {part : Part} {idx : Nat} :
    (if part.bit.toNat = 0 then idx ≤ 15 else idx < Machine.capOf tbl.sel.toNat) ↔ idx < part.size tbl := by
  rw [capOf_sel]
  cases part with
  | count => exact Nat.lt_succ_iff.symm
  | sym => exact Iff.rfl

/-- The opcode map and the formats give a word the same commands. Each command is named by its own row alone, and that
row's match, legality and operands are those of the command's fields. -/
theorem opcodeRow_iff {i : Instr} {w : Word} :
    (∃ row ∈ Machine.opcodeRows, w &&& row.mask = row.pat ∧ row.legal w = true ∧ row.command w = some i) ↔
      i.wellFormed = true ∧ i.fieldsIn w := by
  cases i <;>
    simp [Machine.opcodeRows, Instr.wellFormed, bitsOf_eq_toNat_field, tablesBySel_eq_some, registersBySel_eq_some,
      partBySel_eq]
  case getbit => exact fixedRow_match (i := .getbit)
  case align => exact fixedRow_match (i := .align)
  case trees => exact fixedRow_match (i := .trees)
  case readbits n base => grind [readbitsRow_match, Instr.fieldsIn]
  case build tbl off num => grind [buildRow_match, Instr.fieldsIn, Tbl.sel_le_two_iff, capOf_sel]
  case decode tbl => grind [decodeRow_match, Instr.fieldsIn, Tbl.sel_le_four]
  case wrlens idx val => grind [wrlensRow_match, Instr.fieldsIn]
  case rdlens idx => grind [rdlensRow_match, Instr.fieldsIn]
  case rdtab tbl part idx =>
    rw [rdtabRow_match, Instr.fieldsIn]
    constructor
    · rintro ⟨⟨hop, h27, h9⟩, ⟨-, hidx⟩, htbl, hpart, rfl⟩
      rw [htbl, hpart, rdtab_legal_iff] at hidx
      exact ⟨hidx, hop, h27, htbl, hpart, h9, rfl⟩
    · rintro ⟨hidx, hop, h27, htbl, hpart, h9, rfl⟩
      rw [htbl, hpart, rdtab_legal_iff]
      exact ⟨⟨hop, h27, h9⟩, ⟨tbl.sel_le_four, hidx⟩, rfl, rfl, rfl⟩
  case rdreg reg => grind [rdregRow_match, Instr.fieldsIn, Reg.sel_le_eight]

/-- The decoder gives the command that a row of the opcode map gives (30_encoding.md R79). -/
theorem decodeWord_eq_ok_iff_row {i : Instr} {w : Word} : decodeWord w = .ok i ↔
    ∃ row ∈ Machine.opcodeRows, w &&& row.mask = row.pat ∧ row.legal w = true ∧ row.command w = some i := by
  rw [decodeWord_eq_ok, encode_eq_iff, opcodeRow_iff]

/-- A row's legality holds its selectors to the tables and registers there are. -/
theorem opcodeRow_command_isSome {row : Machine.OpcodeRow} {w : Word} (hrow : row ∈ Machine.opcodeRows)
    (hlegal : row.legal w = true) : ∃ i, row.command w = some i := by
  rw [← Option.isSome_iff_exists]
  simp only [Machine.opcodeRows, List.mem_cons, List.not_mem_nil, or_false] at hrow
  rcases hrow with rfl | rfl | rfl | rfl | rfl | rfl | rfl | rfl | rfl | rfl <;>
    simp [Machine.tablesBySel, Machine.registersBySel] at hlegal ⊢ <;> omega

/-- Settles O5: the words of the rows are those with the fields of a well-formed command. -/
theorem decoderAcceptsTheOpcodeMap : Obligations.DecoderAcceptsTheOpcodeMap := by
  unfold Obligations.DecoderAcceptsTheOpcodeMap
  refine fun w => ⟨⟨?_, ?_⟩, fun i => decodeWord_eq_ok_iff_row⟩
  · rintro ⟨i, hi⟩
    obtain ⟨row, hrow, hmatch, hlegal, -⟩ := decodeWord_eq_ok_iff_row.mp hi
    exact ⟨row, hrow, hmatch, hlegal⟩
  · rintro ⟨row, hrow, hmatch, hlegal⟩
    obtain ⟨i, hi⟩ := opcodeRow_command_isSome hrow hlegal
    exact ⟨i, decodeWord_eq_ok_iff_row.mpr ⟨row, hrow, hmatch, hlegal, hi⟩⟩

end Sys2Proof
end

section
/-! PROOF. What the commands of a word do: illegal fields, RDREG by RSEL, a step on a word that decodes, and the pseudo-instructions (30_encoding.md R80, R83; 44_observation.md R214; 60_exceptions.md R232, R237). -/

namespace Sys2Proof.Machine

/-- Settles O7: the legality test stands before the procedure, and the CmdError writes no working state. -/
theorem illFormedCommandsAreRefused : Obligations.IllFormedCommandsAreRefused := by
  unfold Obligations.IllFormedCommandsAreRefused
  intro s i hw he
  refine ⟨Config.freeResponse s.draws, s.draws + 1, ?_⟩
  rw [exec_eq, if_pos (.inr he), hw, checked_illegal, State.raiseCmd, he]
  rfl

/-! ### RDREG -/

/-- RDREG is never illegal and reads one register, whatever ERR is (44_observation.md R214). -/
theorem exec_rdreg (s : State) (reg : Reg) : exec (.rdreg reg) s = .next (s.ok (s.reg reg)) :=
  exec_of_observation rfl rfl

/-- The word of RDREG is its OP beside RSEL (30_encoding.md R76). -/
theorem decodeWord_rdreg (reg : Reg) : decodeWord (0xA0000000 ||| reg.sel.setWidth 32) = .ok (.rdreg reg) :=
  decodeWord_eq_ok.mpr ⟨rfl, by cases reg <;> rfl⟩

/-- Settles O37: RDREG answers the zero-extended register; an RSEL names a register, so its word answers as that register. -/
theorem rdregReturnsTheRegister : Obligations.RdregReturnsTheRegister := by
  unfold Obligations.RdregReturnsTheRegister
  refine and_iff_left_of_imp ?_ |>.mpr ?_
  · intro hvalue s rsel hrsel
    obtain ⟨reg, rfl⟩ := Reg.exists_sel_eq hrsel
    obtain ⟨v, hexec, hv⟩ := hvalue s reg
    refine ⟨reg, v, decodeWord_rdreg reg, hexec, ?_⟩
    cases reg <;> exact hv
  · intro s reg
    refine ⟨s.reg reg, exec_rdreg s reg, ?_⟩
    cases reg with
    | si | tag | srcLen => rfl
    | err => cases h : s.err <;> simp [State.reg, h]
    | bc | errCause | hlit | hdist | hclen => exact BitVec.toNat_setWidth_of_le (by decide)

/-! ### Words -/

/-- Settles O8: a step takes the word from the port and runs what it decodes to. -/
theorem stepRunsTheDecodedCommand : Obligations.StepRunsTheDecodedCommand := by
  unfold Obligations.StepRunsTheDecodedCommand
  intro s w rest i hport hdecode
  simp only [step, hport, runWord, hdecode]

/-- Settles O2: the assembler runs on each of these closed lines, and a pseudo-instruction and its expansion give one word. -/
theorem pseudoInstructionsExpand : Obligations.PseudoInstructionsExpand := by
  unfold Obligations.PseudoInstructionsExpand
  decide

end Sys2Proof.Machine
end

section
/-! PROOF. The bitstream reader beside the field reads (40_bitstream_reader.md R103 to R107, 42_symbol_decoder.md R162): GETBIT as a READBITS, READBITS 0, ALIGN, and DECODE of a code that is there. -/

namespace Sys2Proof.Machine

/-! ### DECODE -/

/-- Lengths whose bits are there and are no code are passed over (42_symbol_decoder.md R162, R164). -/
theorem Source.decodeAt_append {src : Source} {count : Nat → Nat} {p : Nat} {ls : List Nat} (rest : List Nat)
    (h : ∀ m ∈ ls, p + m ≤ src.size ∧ ¬ src.codeEnds count p m) :
    src.decodeAt count p (ls ++ rest) = src.decodeAt count p rest := by
  induction ls with
  | nil => rfl
  | cons l ls ih =>
    obtain ⟨hthere, hnocode⟩ := h l List.mem_cons_self
    rw [List.cons_append, Source.decodeAt, if_neg (Nat.not_lt.mpr hthere), if_neg hnocode]
    exact ih fun m hm => h m (List.mem_cons_of_mem l hm)

/-- DECODEPROC tries the lengths below l, then l, then the others. -/
theorem codeLengths_eq_append {l : Nat} (h1 : 1 ≤ l) (h15 : l ≤ 15) :
    codeLengths = List.range' 1 (l - 1) ++ l :: List.range' (l + 1) (15 - l) := by
  obtain ⟨m, rfl⟩ : ∃ m, l = 1 + m := ⟨l - 1, by omega⟩
  rw [Nat.add_sub_cancel_left, ← List.range'_succ, List.range'_append_1]
  exact congrArg (List.range' 1) (by simp only [Config.maxCodeLen]; omega)

/-- The abstract decoder stops at the shortest code (42_symbol_decoder.md R162). -/
theorem Source.decodeAt_of_codeEnds {src : Source} {count : Nat → Nat} {p l : Nat} (h1 : 1 ≤ l) (h15 : l ≤ 15)
    (hl : src.codeEnds count p l) (hshort : ∀ m, 1 ≤ m → m < l → ¬ src.codeEnds count p m) (hp : p + l ≤ src.size) :
    src.decodeAt count p codeLengths = .ok (src.codePlace count p l, p + l) := by
  have hbelow : ∀ m ∈ List.range' 1 (l - 1), p + m ≤ src.size ∧ ¬ src.codeEnds count p m := by
    intro m hm
    rw [List.mem_range'_1] at hm
    exact ⟨by omega, hshort m hm.1 (by omega)⟩
  rw [codeLengths_eq_append h1 h15, Source.decodeAt_append _ hbelow, Source.decodeAt, if_neg (Nat.not_lt.mpr hp),
    if_pos hl]

/-- With ERR = 0, a DECODE of a valid table whose decoder returns writes the reader, RESULT and the response (42_symbol_decoder.md R160). -/
theorem exec_decode_ok {s : State} {tbl : Tbl} {v : BitVec 9} {r : Reader} (he : s.err = false)
    (hv : (s.table tbl).valid = true) (hd : (s.table tbl).decodeProc s.src s.reader = .ok (v, r)) :
    exec (.decode tbl) s = .next (State.ok (v.setWidth 32) { s with reader := r }) := by
  have hproc : procOf (.decode tbl) s = .ok (v.setWidth 32, { s with reader := r }) := by
    simp only [procOf, decodeTableProc, hv, if_true, hd]
  rw [exec_of_legal he rfl, hproc, finish_ok]

/-- Settles O27: the abstract decoder stops at length l, DECODEPROC follows it, and its look-ahead is that of REFILL. -/
theorem decodeReadsTheCanonicalCode : Obligations.DecodeReadsTheCanonicalCode := by
  unfold Obligations.DecodeReadsTheCanonicalCode
  intro s tbl l j he hi hv hok h1 h15 hj hcode hshort hp
  have hends : s.src.codeEnds (s.table tbl).countAt s.reader.pos l := by
    unfold Source.codeEnds
    omega
  have hplace : s.src.codePlace (s.table tbl).countAt s.reader.pos l = sumBelow (s.table tbl).countAt l + j := by
    rw [Source.codePlace, hcode, Nat.add_sub_cancel_left]
  obtain ⟨hzero, -⟩ := hok
  have hspec := Table.decodeProc_spec (s.table tbl) hzero hi
  simp only [Source.decodeAt_of_codeEnds h1 h15 hends hshort hp, hplace] at hspec
  obtain ⟨r, hd, hinv, hpos⟩ := hspec
  exact ⟨r, _, exec_decode_ok he hv hd, BitVec.toNat_setWidth_of_le (by decide), hinv, hpos,
    Table.decodeProc_tookAfterRefill hi hd hinv hpos⟩

/-! ### ALIGN -/

/-- With ERR = 0, ALIGN runs its three assignments and answers 0 (40_bitstream_reader.md R106). -/
theorem exec_align {s : State} (he : s.err = false) :
    exec .align s = .next (State.ok 0 { s with reader := s.reader.align }) :=
  exec_of_legal he rfl

/-- ALIGN gives back the whole bytes of the buffer (40_bitstream_reader.md R106). -/
theorem Reader.align_si (r : Reader) : r.align.si = r.si - BitVec.ofNat 32 (r.bc.toNat / 8) := by
  have hbytes : (r.bc >>> 3).setWidth 32 = BitVec.ofNat 32 (r.bc.toNat / 8) := by
    rw [← BitVec.ofNat_toNat, BitVec.toNat_ushiftRight, Nat.shiftRight_eq_div_pow]
  rw [Reader.align, hbytes]

/-- Settles O18: the reader left is that of the three assignments. -/
theorem alignEmptiesTheBuffer : Obligations.AlignEmptiesTheBuffer := by
  unfold Obligations.AlignEmptiesTheBuffer
  exact fun s he => ⟨s.reader.align, exec_align he, s.reader.align_si, rfl, rfl⟩

/-- The bits of the buffer past its whole bytes end at a byte boundary (40_bitstream_reader.md R107). -/
theorem Reader.pos_add_bc_mod {r : Reader} (h : r.bc.toNat ≤ 8 * r.si.toNat) :
    r.pos + r.bc.toNat % 8 = 8 * ((r.pos + 7) / 8) := by
  unfold Reader.pos
  omega

/-- Settles O19: the new position is the next multiple of 8, and that is BC mod 8 bits on. -/
theorem alignMovesToTheNextByte : Obligations.AlignMovesToTheNextByte := by
  unfold Obligations.AlignMovesToTheNextByte
  intro s t he hi ht
  rw [exec_align he, Host.Outcome.next.injEq] at ht
  subst ht
  obtain ⟨hinv, hpos⟩ := Reader.align_inv hi
  obtain ⟨-, hbc, -⟩ := hi
  have hdrop := Reader.pos_add_bc_mod hbc
  simp only [State.ok_reader]
  exact ⟨hinv, hpos, rfl, rfl, hpos.trans hdrop.symm, by omega, by omega⟩

/-! ### GETBIT and READBITS 0 -/

/-- Settles O13: the two commands have one procedure. -/
theorem getbitIsReadbitsOne : Obligations.GetbitIsReadbitsOne :=
  exec_getbit_eq_readbits_one

/-- Settles O15: with n = 0 the procedure of READBITS returns base and leaves the reader alone. -/
theorem readbitsZeroReturnsBase : Obligations.ReadbitsZeroReturnsBase := by
  unfold Obligations.ReadbitsZeroReturnsBase
  intro s base he
  have hproc : procOf (.readbits 0 base) s = .ok (base.setWidth 32, s) := by
    simp only [procOf, readbitsProc, if_true]
  rw [exec_of_legal he rfl, hproc, finish_ok]
  rfl

end Sys2Proof.Machine
end

section
/-! PROOF. The table builder and its readers: BUILD sorts the symbols (41_tree_builder.md R133), DECODE answers a used symbol (42_symbol_decoder.md R163), RDTAB answers the cell (44_observation.md R212). -/

namespace Sys2Proof.Machine

/-! ### The order of the sorted symbols -/

/-- The code length of symbol i; 0 past the end of the lengths. -/
abbrev lengthAt (ls : List (BitVec 4)) (i : Nat) : Nat := (ls[i]?.getD 0).toNat

/-- The order of the used symbols: by length, then by symbol (41_tree_builder.md R133). -/
def SortsBefore (ls : List (BitVec 4)) (i j : Nat) : Prop :=
  lengthAt ls i < lengthAt ls j ∨ (lengthAt ls i = lengthAt ls j ∧ i < j)

theorem mem_symsOfLength_iff {ls : List (BitVec 4)} {l i : Nat} :
    i ∈ symsOfLength ls l ↔ i < ls.length ∧ lengthAt ls i = l := by
  simp only [symsOfLength, List.mem_filter, List.mem_range, beq_iff_eq]

/-- The sorted symbols are the symbols of non-zero length. -/
theorem mem_sortedSyms_iff {ls : List (BitVec 4)} {i : Nat} :
    i ∈ sortedSyms ls ↔ i < ls.length ∧ lengthAt ls i ≠ 0 := by
  have h16 : lengthAt ls i < 16 := (ls[i]?.getD 0).isLt
  simp only [sortedSyms, List.mem_flatMap, mem_symsOfLength_iff, List.mem_range'_1, Config.maxCodeLen]
  constructor
  · rintro ⟨l, ⟨h1, -⟩, hi, rfl⟩
    exact ⟨hi, by omega⟩
  · rintro ⟨hi, h0⟩
    exact ⟨_, ⟨by omega, by omega⟩, hi, rfl⟩

/-- The symbols of one length are listed by symbol. -/
theorem pairwise_symsOfLength (ls : List (BitVec 4)) (l : Nat) : (symsOfLength ls l).Pairwise (SortsBefore ls) := by
  have hlt : (symsOfLength ls l).Pairwise (· < ·) := List.pairwise_lt_range.filter _
  refine hlt.imp_of_mem fun hi hj hij => .inr ⟨?_, hij⟩
  rw [(mem_symsOfLength_iff.mp hi).2, (mem_symsOfLength_iff.mp hj).2]

/-- The sorted symbols rise by length and then by symbol: within a group by symbol, and the groups by length. -/
theorem pairwise_sortedSyms (ls : List (BitVec 4)) : (sortedSyms ls).Pairwise (SortsBefore ls) := by
  refine List.pairwise_flatMap.mpr ⟨fun l _ => pairwise_symsOfLength ls l, ?_⟩
  refine (List.pairwise_lt_range' 1).imp fun hlm i hi j hj => .inl ?_
  rw [(mem_symsOfLength_iff.mp hi).2, (mem_symsOfLength_iff.mp hj).2]
  exact hlm

/-- No symbol is listed twice. -/
theorem nodup_sortedSyms (ls : List (BitVec 4)) : (sortedSyms ls).Nodup := by
  refine (pairwise_sortedSyms ls).imp fun hbefore heq => ?_
  subst heq
  unfold SortsBefore at hbefore
  omega

/-- A place lies in one group only. -/
theorem eq_iff_of_group {count : Nat → Nat} {m k l : Nat} (hlo : sumBelow count m ≤ k)
    (hhi : k < sumBelow count (m + 1)) : m = l ↔ sumBelow count l ≤ k ∧ k < sumBelow count (l + 1) := by
  constructor
  · rintro rfl
    exact ⟨hlo, hhi⟩
  · intro hl
    by_contra hne
    have hsep := sumBelow_sep count hne
    simp only [sumBelow] at hhi hl
    omega

/-- The symbol at a place has length L exactly when the place lies in the group of L (41_tree_builder.md R133). -/
theorem lengthAt_sortedSyms_iff {ls : List (BitVec 4)} {k : Nat} (hk : k < (sortedSyms ls).length) (l : Nat) :
    lengthAt ls (sortedSyms ls)[k] = l ↔
      sumBelow (lengthCount ls) l ≤ k ∧ k < sumBelow (lengthCount ls) (l + 1) := by
  obtain ⟨m, hm, j, hj, rfl⟩ := exists_group (count := lengthCount ls) (n := 16) (by rwa [← length_sortedSyms])
  have hm0 : m ≠ 0 := by
    rintro rfl
    simp [lengthCount] at hj
  have hget := sortedSyms_getElem? ls (by omega) hm hj
  rw [List.getElem?_eq_getElem hk] at hget
  have hlen := (mem_symsOfLength_iff.mp (List.mem_of_getElem? hget.symm)).2
  rw [hlen]
  exact eq_iff_of_group (by omega) (by simp only [sumBelow]; omega)

/-! ### BUILD -/

@[simp] theorem State.table_ok (s : State) (v : Word) (tbl : Tbl) : (s.ok v).table tbl = s.table tbl := by
  cases tbl <;> rfl

/-- With ERR = 0, a legal BUILD over written cells replaces its table by the build of their values, and answers USED
(41_tree_builder.md R131). -/
theorem exec_build {s : State} {tbl : Tbl} {off num : BitVec 9} {ls : List (BitVec 4)} (he : s.err = false)
    (hw : tbl.writable = true) (hn : num.toNat ≤ tbl.cap) (hr : off.toNat + num.toNat ≤ 320)
    (hls : Lens.cells s.lens off.toNat num.toNat = some ls) :
    exec (.build tbl off num) s = .next
      ((s.setTable tbl ((s.table tbl).build ls)).ok (BitVec.ofNat 32 ((s.table tbl).build ls).used)) := by
  rw [exec_of_legal he (build_wellFormed hw hn hr)]
  simp only [procOf, buildTableProc, Table.buildProc_eq _ hls, finish_ok]

/-- Settles O23: the used cells of the build are the sorted symbols, and each part is a fact about that list. -/
theorem buildSortsTheSymbols : Obligations.BuildSortsTheSymbols := by
  unfold Obligations.BuildSortsTheSymbols
  intro s t tbl off num ls he hw hn hr hls ht
  rw [exec_build he hw hn hr hls, Host.Outcome.next.injEq] at ht
  subst ht
  simp only [State.table_ok, State.table_setTable_self _ _ _ hw]
  have hlen : ls.length = num.toNat := (Lens.cells_eq_some.mp hls).1
  have hcap := cap_lt_512 tbl
  have h512 : ls.length < 512 := by omega
  have hused : ((s.table tbl).build ls).used = (sortedSyms ls).length := by
    rw [Table.used_build _ h512, length_sortedSyms]
  have hsym : ∀ k (hk : k < (sortedSyms ls).length), (((s.table tbl).build ls).symAt k).toNat = (sortedSyms ls)[k] :=
    fun k hk => Table.symAt_build _ (by omega) hcap hk
  rw [hused, Table.countAt_build_fun _ h512, ← hlen]
  refine ⟨fun i hi hi0 => ?_, fun k hk => ?_, fun j k hjk hk => ?_, fun k l hk => ?_, ?_, by omega⟩
  · obtain ⟨k, hk, hki⟩ := List.getElem_of_mem (mem_sortedSyms_iff.mpr ⟨hi, hi0⟩)
    refine ⟨k, hk, (hsym k hk).trans hki, fun k' hk' hk'i => ?_⟩
    rw [hsym k' hk', ← hki] at hk'i
    exact (nodup_sortedSyms ls).getElem_inj_iff.mp hk'i
  · rw [hsym k hk]
    exact mem_sortedSyms_iff.mp (List.getElem_mem hk)
  · rw [hsym j (by omega), hsym k hk]
    exact List.pairwise_iff_getElem.mp (pairwise_sortedSyms ls) j k (by omega) hk hjk
  · rw [hsym k hk]
    exact lengthAt_sortedSyms_iff hk l
  · rw [length_sortedSyms]
    exact used_le_length ls

/-! ### DECODE -/

/-- A decoder that returns answers the symbol of a used cell (42_symbol_decoder.md R163). -/
theorem Table.exists_used_of_decodeProc {cap : Nat} {t : Table cap} {src : Source} {r r' : Reader} {v : BitVec 9}
    (h0 : t.countAt 0 = 0) (hi : r.inv src) (h : t.decodeProc src r = .ok (v, r')) : ∃ i < t.used, v = t.symAt i := by
  have hspec := Table.decodeProc_spec t h0 hi
  cases hd : src.decodeAt t.countAt r.pos codeLengths with
  | error c =>
    simp only [hd, h] at hspec
    cases hspec
  | ok placed =>
    obtain ⟨place, p'⟩ := placed
    simp only [hd, h, Except.ok.injEq, Prod.mk.injEq] at hspec
    obtain ⟨-, ⟨rfl, -⟩, -, -⟩ := hspec
    exact ⟨place, (Source.decodeAt_used t hd).1, rfl⟩

/-- A DECODE procedure that returns is the decoder's answer, zero-extended (42_symbol_decoder.md R160). -/
theorem decodeTableProc_ok {s u : State} {tbl : Tbl} {v : Word} (h : decodeTableProc tbl s = .ok (v, u)) :
    ∃ (sym : BitVec 9) (r : Reader), (s.table tbl).decodeProc s.src s.reader = .ok (sym, r) ∧ v = sym.setWidth 32 := by
  unfold decodeTableProc at h
  split at h
  · split at h
    · cases h
    · cases h
      exact ⟨_, _, by assumption, rfl⟩
  · cases h

/-- Settles O29: the answer is the symbol of a used cell, and a table in order has only symbols below the capacity there. -/
theorem decodedSymbolsAreInRange : Obligations.DecodedSymbolsAreInRange := by
  unfold Obligations.DecodedSymbolsAreInRange
  intro s t tbl _ hi hok h ht
  obtain ⟨hzero, -, hrange⟩ := hok
  obtain ⟨-, v, u, hp, rfl⟩ := exec_next_of_no_err h ht
  obtain ⟨sym, r, hd, rfl⟩ := decodeTableProc_ok hp
  obtain ⟨i, hiused, rfl⟩ := Table.exists_used_of_decodeProc hzero hi hd
  have hv : (((s.table tbl).symAt i).setWidth 32).toNat = ((s.table tbl).symAt i).toNat :=
    BitVec.toNat_setWidth_of_le (by decide)
  rw [State.ok_result, hv]
  exact ⟨hrange i hiused, i, hiused, rfl⟩

/-! ### RDTAB -/

/-- A legal RDTAB is its procedure, whatever ERR is (44_observation.md R212, 60_exceptions.md R237). -/
theorem exec_rdtab {s : State} {tbl : Tbl} {part : Part} {idx : BitVec 9} (hidx : idx.toNat < part.size tbl) :
    exec (.rdtab tbl part idx) s = finish (rdtabProc tbl part idx.toNat s) s :=
  exec_of_observation rfl (decide_eq_true hidx)

/-- A count is a 9-bit number (10_state.md R28). -/
theorem Table.countAt_lt {cap : Nat} (t : Table cap) (l : Nat) : t.countAt l < 512 :=
  (t.count[l]?.getD 0).isLt

/-- Settles O36: the procedure reads a count or a used symbol and writes nothing; a stale symbol is drawn. -/
theorem rdtabReturnsTheCell : Obligations.RdtabReturnsTheCell := by
  unfold Obligations.RdtabReturnsTheCell
  intro s tbl part idx hv hidx
  rw [exec_rdtab hidx]
  cases part with
  | count =>
    refine ⟨BitVec.ofNat 32 ((s.table tbl).countAt idx.toNat), s.draws, ?_, fun _ => ⟨?_, rfl⟩, nofun⟩
    · simp only [rdtabProc, hv, if_true, finish_ok]
      rfl
    · have := (s.table tbl).countAt_lt idx.toNat
      rw [BitVec.toNat_ofNat, Nat.mod_eq_of_lt (by omega)]
  | sym =>
    by_cases hu : idx.toNat < (s.table tbl).used
    · refine ⟨((s.table tbl).symAt idx.toNat).setWidth 32, s.draws, ?_, nofun,
        fun _ _ => ⟨BitVec.toNat_setWidth_of_le (by decide), rfl⟩⟩
      simp only [rdtabProc, hv, if_true, if_pos hu, finish_ok]
      rfl
    · refine ⟨(Config.freeStale s.draws).setWidth 32, s.draws + 1, ?_, nofun, fun _ h => absurd h hu⟩
      simp only [rdtabProc, hv, if_true, if_neg hu, finish_ok]
      rfl

end Sys2Proof.Machine
end

section
/-! PROOF. How DECODE ends as the stream bits run out (42_symbol_decoder.md R164): no code in 15 bits, no code in the bits left, and a code within the bits left. -/

namespace Sys2Proof.Machine

/-! ### The abstract decoder -/

/-- With 15 bits there and no code among their prefixes, the abstract decoder runs out of lengths. -/
theorem Source.decodeAt_eq_codeTooLong {src : Source} {count : Nat → Nat} {p : Nat}
    (hnocode : ∀ m, 1 ≤ m → m ≤ 15 → ¬ src.codeEnds count p m) (hp : p + 15 ≤ src.size) :
    src.decodeAt count p codeLengths = .error .codeTooLong := by
  have hall : ∀ m ∈ codeLengths, p + m ≤ src.size ∧ ¬ src.codeEnds count p m := by
    intro m hm
    obtain ⟨h1, h15⟩ := List.mem_range'_1.mp hm
    simp only [Config.maxCodeLen] at h15
    exact ⟨by omega, hnocode m h1 (by omega)⟩
  simpa only [List.append_nil, Source.decodeAt] using Source.decodeAt_append [] hall

/-- With k < 15 bits left and no code among their prefixes, the abstract decoder stops at length k + 1. -/
theorem Source.decodeAt_eq_eoi {src : Source} {count : Nat → Nat} {p k : Nat} (hk : k < 15)
    (hp : p + k = src.size) (hnocode : ∀ m, 1 ≤ m → m ≤ k → ¬ src.codeEnds count p m) :
    src.decodeAt count p codeLengths = .error .eoi := by
  have hbelow : ∀ m ∈ List.range' 1 (k + 1 - 1), p + m ≤ src.size ∧ ¬ src.codeEnds count p m := by
    intro m hm
    obtain ⟨h1, hmk⟩ := List.mem_range'_1.mp hm
    exact ⟨by omega, hnocode m h1 (by omega)⟩
  rw [codeLengths_eq_append (Nat.le_add_left 1 k) hk, Source.decodeAt_append _ hbelow, Source.decodeAt,
    if_pos (by omega)]

/-- Where some prefix is a code, a shortest one is. -/
theorem Source.exists_shortest_code {src : Source} {count : Nat → Nat} {p m : Nat} (h1 : 1 ≤ m)
    (hm : src.codeEnds count p m) :
    ∃ l, 1 ≤ l ∧ l ≤ m ∧ src.codeEnds count p l ∧ ∀ n, 1 ≤ n → n < l → ¬ src.codeEnds count p n := by
  have hex : ∃ l, 1 ≤ l ∧ src.codeEnds count p l := ⟨m, h1, hm⟩
  obtain ⟨hl1, hl⟩ := Nat.find_spec hex
  exact ⟨Nat.find hex, hl1, Nat.find_min' hex ⟨h1, hm⟩, hl, fun n hn1 hn hends => Nat.find_min hex hn ⟨hn1, hends⟩⟩

/-! ### DECODE -/

/-- With ERR = 0, a DECODE of a valid table raises the DataError that the abstract decoder ends with (42_symbol_decoder.md R161, R164). -/
theorem exec_decode_data {s : State} {tbl : Tbl} {c : DataCause} (he : s.err = false) (hi : s.reader.inv s.src)
    (hv : (s.table tbl).valid = true) (h0 : (s.table tbl).countAt 0 = 0)
    (hd : s.src.decodeAt (s.table tbl).countAt s.reader.pos codeLengths = .error c) :
    exec (.decode tbl) s = .next (s.raiseData c) := by
  have hspec := Table.decodeProc_spec (s.table tbl) h0 hi
  simp only [hd] at hspec
  have hproc : procOf (.decode tbl) s = .error (.data c) := by
    simp only [procOf, decodeTableProc, hv, if_true, hspec]
  rw [exec_of_legal he rfl, hproc, finish_data]

/-- A DECODE that raises a DataError leaves ERR = 1, its cause, and a response with STATUS DataError (60_exceptions.md R234). -/
theorem exists_data_error_of_decodeAt {s : State} {tbl : Tbl} {c : DataCause} (he : s.err = false)
    (hi : s.reader.inv s.src) (hv : (s.table tbl).valid = true) (h0 : (s.table tbl).countAt 0 = 0)
    (hd : s.src.decodeAt (s.table tbl).countAt s.reader.pos codeLengths = .error c) :
    ∃ t v, exec (.decode tbl) s = .next t ∧ t.err = true ∧ t.errCause = c.code ∧
      t.response = some { status := .dataError, result := v } :=
  ⟨_, _, exec_decode_data he hi hv h0 hd, State.raiseData_err s c, State.raiseData_errCause s c,
    State.raiseData_response s c⟩

/-- Settles O28: the abstract decoder ends in each of the three ways; on a code within the bits left it stops at the shortest one, and O27 gives the answer. -/
theorem decodeFailsAsTheBitsRunOut : Obligations.DecodeFailsAsTheBitsRunOut := by
  unfold Obligations.DecodeFailsAsTheBitsRunOut
  intro s tbl he hi hv hok
  have h0 : (s.table tbl).countAt 0 = 0 := hok.1
  refine ⟨fun hnocode hp => ?_, fun k hk hp hnocode => ?_, fun m h1 h15 hp hm => ?_⟩
  · exact exists_data_error_of_decodeAt he hi hv h0 (Source.decodeAt_eq_codeTooLong hnocode hp)
  · exact exists_data_error_of_decodeAt he hi hv h0 (Source.decodeAt_eq_eoi hk hp hnocode)
  · obtain ⟨l, hl1, hlm, hl, hshort⟩ := Source.exists_shortest_code h1 hm
    obtain ⟨hfirst, hlast⟩ := hl
    obtain ⟨j, hcode⟩ := Nat.exists_eq_add_of_le hfirst
    obtain ⟨r, v, hexec, -⟩ := decodeReadsTheCanonicalCode s tbl l j he hi hv hok hl1 (by omega)
      (by omega) hcode hshort (by omega)
    exact ⟨_, v, hexec, he, rfl⟩

end Sys2Proof.Machine
end

section
/-! PROOF. TREES against the abstract descriptor parser (43_tree_descriptor.md R181 to R198): how it ends on each answer of the parser, and how RESULT packs the header fields (R192). -/

namespace Sys2Proof.Machine

/-! ### The packing of RESULT -/

/-- A field shifted to where it still fits a word. -/
theorem toNat_setWidth_shiftLeft {n k : Nat} (x : BitVec n) (h : n + k ≤ 32) :
    (x.setWidth 32 <<< k).toNat = 2 ^ k * x.toNat := by
  have hlt : 2 ^ k * x.toNat < 2 ^ 32 :=
    calc 2 ^ k * x.toNat < 2 ^ k * 2 ^ n := Nat.mul_lt_mul_of_pos_left x.isLt (Nat.two_pow_pos k)
      _ = 2 ^ (k + n) := (pow_add 2 k n).symm
      _ ≤ 2 ^ 32 := Nat.pow_le_pow_right (by omega) (by omega)
  rw [BitVec.toNat_shiftLeft, BitVec.toNat_setWidth_of_le (by omega), Nat.shiftLeft_eq, Nat.mul_comm,
    Nat.mod_eq_of_lt hlt]

/-- The three fields stand side by side, so the OR of their shifts is a sum (43_tree_descriptor.md R192). -/
theorem Descriptor.toNat_pack (d : Descriptor) :
    d.pack.toNat = d.hlit.toNat + 2 ^ 9 * d.hdist.toNat + 2 ^ 15 * d.hclen.toNat := by
  have hhlit := d.hlit.isLt
  have hhdist := d.hdist.isLt
  have hlow : d.hlit.toNat ||| 2 ^ 9 * d.hdist.toNat = 2 ^ 9 * d.hdist.toNat + d.hlit.toNat :=
    (Nat.or_comm _ _).trans (Nat.two_pow_add_eq_or_of_lt hhlit _).symm
  have hall : 2 ^ 9 * d.hdist.toNat + d.hlit.toNat ||| 2 ^ 15 * d.hclen.toNat =
      2 ^ 15 * d.hclen.toNat + (2 ^ 9 * d.hdist.toNat + d.hlit.toNat) :=
    (Nat.or_comm _ _).trans (Nat.two_pow_add_eq_or_of_lt (by omega) _).symm
  rw [Descriptor.pack, BitVec.toNat_or, BitVec.toNat_or, BitVec.toNat_setWidth_of_le (by omega),
    toNat_setWidth_shiftLeft _ (by omega), toNat_setWidth_shiftLeft _ (by omega), hlow, hall]
  omega

/-- Part of a word is a quotient and a remainder of its number. -/
theorem extractLsb'_eq_iff {w lo n : Nat} {x : BitVec w} {y : BitVec n} :
    x.extractLsb' lo n = y ↔ x.toNat / 2 ^ lo % 2 ^ n = y.toNat := by
  rw [← BitVec.toNat_inj, BitVec.extractLsb'_toNat, Nat.shiftRight_eq_div_pow]

/-- The packed word gives each field back, and nothing stands above them (43_tree_descriptor.md R192). -/
theorem Descriptor.extractLsb'_pack (d : Descriptor) :
    d.pack.extractLsb' 0 9 = d.hlit ∧ d.pack.extractLsb' 9 6 = d.hdist ∧
      d.pack.extractLsb' 15 5 = d.hclen ∧ d.pack.extractLsb' 20 12 = 0 := by
  have hhlit := d.hlit.isLt
  have hhdist := d.hdist.isLt
  have hhclen := d.hclen.isLt
  simp only [extractLsb'_eq_iff, d.toNat_pack, BitVec.ofNat_eq_ofNat, BitVec.toNat_ofNat]
  omega

/-- The descriptor registers hold a parsed descriptor's fields whole (10_state.md R27). -/
theorem Parsed.toNat_pack_desc {src : Source} {p : Nat} {d : Parsed} (h : src.treesAt p = .ok d) :
    d.desc.pack.toNat = d.hlit + 2 ^ 9 * d.hdist + 2 ^ 15 * d.hclen := by
  obtain ⟨-, hhlit, -, hhdist, -, hhclen⟩ := Source.treesAt_bounds h
  rw [Descriptor.toNat_pack]
  simp only [Parsed.desc, BitVec.toNat_ofNat]
  omega

/-! ### TREES on each answer of the parser -/

section
variable {s : State} (he : s.err = false) (hi : s.reader.inv s.src)
include he hi

/-- With ERR = 0, TREES where the stream holds a descriptor leaves the parsed fields, lengths and position, and the three
builds (43_tree_descriptor.md R181 to R197). -/
theorem exec_trees_ok {d : Parsed} (hd : s.src.treesAt s.reader.pos = .ok d) :
    ∃ l r, exec .trees s = .next (State.ok d.desc.pack { s with
        reader := r, desc := d.desc, lens := l, clt := s.clt.build d.clLens,
        lt := s.lt.build (d.lens.take d.hlit), dt := s.dt.build (d.lens.drop d.hlit) }) ∧
      r.inv s.src ∧ r.pos = d.pos ∧ Lens.cells l 0 (d.hlit + d.hdist) = some d.lens ∧
      ∀ i, d.hlit + d.hdist ≤ i → Lens.cell l i = Lens.cell s.lens i := by
  have hspec := treesProc_spec hi
  simp only [hd] at hspec
  obtain ⟨l, r, hproc, hinv, hpos, hholds, -, hlen, hkeep⟩ := hspec
  exact ⟨l, r, by rw [exec_of_legal he rfl, procOf, hproc, finish_ok], hinv, hpos, hlen ▸ hholds.cells, hkeep⟩

/-- With ERR = 0, TREES where the stream holds no descriptor raises the parser's error (43_tree_descriptor.md R198). -/
theorem exec_trees_data {c : DataCause} (hd : s.src.treesAt s.reader.pos = .error c) :
    exec .trees s = .next (s.raiseData c) := by
  have hspec := treesProc_spec hi
  simp only [hd] at hspec
  rw [exec_of_legal he rfl, procOf, hspec, finish_data]

end

/-- Settles O31: TREES follows the parser, and RESULT is the packed fields. -/
theorem treesParsesTheDescriptor : Obligations.TreesParsesTheDescriptor := by
  unfold Obligations.TreesParsesTheDescriptor
  intro s d he hi hd
  obtain ⟨l, r, hexec, hinv, hpos, hcells, hkeep⟩ := exec_trees_ok he hi hd
  exact ⟨r, l, d.desc.pack, hexec, Parsed.toNat_pack_desc hd, hinv, hpos, hcells, hkeep⟩

/-- Settles O32: TREES raises the error at which the parser stops. -/
theorem treesReportsTheFirstFailure : Obligations.TreesReportsTheFirstFailure := by
  unfold Obligations.TreesReportsTheFirstFailure
  intro s c he hi hd
  exact ⟨_, _, exec_trees_data he hi hd, s.raiseData_err c, s.raiseData_errCause c, s.raiseData_response c,
    s.raiseData_src c⟩

/-- Settles O33: a TREES that ends with ERR = 0 has parsed a descriptor, and its RESULT is the packed fields. -/
theorem treesPacksItsResult : Obligations.TreesPacksItsResult := by
  unfold Obligations.TreesPacksItsResult
  intro s t he hi h ht
  cases hd : s.src.treesAt s.reader.pos with
  | error c =>
    rw [exec_trees_data he hi hd, Host.Outcome.next.injEq] at h
    subst h
    rw [State.raiseData_err] at ht
    cases ht
  | ok d =>
    obtain ⟨l, r, hexec, -⟩ := exec_trees_ok he hi hd
    rw [hexec, Host.Outcome.next.injEq] at h
    subst h
    exact d.desc.extractLsb'_pack

end Sys2Proof.Machine
end

section
/-! PROOF. Observations (44_observation.md R210, R215): what RDLENS returns, and that an observation leaves nothing a later command reads. -/

namespace Sys2Proof.Machine

/-! ### RDLENS -/

/-- Settles O35: an observation is its procedure whatever ERR is, and that of RDLENS returns a written cell. -/
theorem rdlensReturnsTheCell : Obligations.RdlensReturnsTheCell := by
  unfold Obligations.RdlensReturnsTheCell
  intro s idx val hidx hcell
  have hw : (Instr.rdlens idx).wellFormed = true := decide_eq_true (Nat.lt_succ_of_le hidx)
  have hproc : rdlensProc idx.toNat s = .ok (val.setWidth 32, s) := by rw [rdlensProc, hcell]
  rw [exec_of_observation rfl hw, procOf, hproc, finish_ok]
  rfl

/-! ### The answer of a command, apart from the rest of the state -/

/-- The state `s` with RESULT, the response and the draw counter of `a`: all that an observation writes. -/
def State.withAnswer (s a : State) : State :=
  { s with result := a.result, response := a.response, draws := a.draws }

@[simp] theorem State.withAnswer_src (s a : State) : (s.withAnswer a).src = s.src := rfl
@[simp] theorem State.withAnswer_reader (s a : State) : (s.withAnswer a).reader = s.reader := rfl
@[simp] theorem State.withAnswer_err (s a : State) : (s.withAnswer a).err = s.err := rfl
@[simp] theorem State.withAnswer_errCause (s a : State) : (s.withAnswer a).errCause = s.errCause := rfl
@[simp] theorem State.withAnswer_lens (s a : State) : (s.withAnswer a).lens = s.lens := rfl
@[simp] theorem State.withAnswer_lt (s a : State) : (s.withAnswer a).lt = s.lt := rfl
@[simp] theorem State.withAnswer_dt (s a : State) : (s.withAnswer a).dt = s.dt := rfl
@[simp] theorem State.withAnswer_clt (s a : State) : (s.withAnswer a).clt = s.clt := rfl

@[simp] theorem State.table_withAnswer (s a : State) (tbl : Tbl) : (s.withAnswer a).table tbl = s.table tbl := by
  cases tbl <;> rfl

@[simp] theorem State.setTable_withAnswer (s a : State) (tbl : Tbl) (t : Table tbl.cap) :
    (s.withAnswer a).setTable tbl t = (s.setTable tbl t).withAnswer a := by
  cases tbl <;> rfl

/-- A CmdError writes beside the answer only ERR and ERR_CAUSE, and both without reading it (60_exceptions.md R236). -/
theorem State.raiseCmd_withAnswer (s a : State) (c : CmdCause) :
    (s.withAnswer a).raiseCmd c = (s.raiseCmd c).withAnswer ((s.withAnswer a).raiseCmd c) := by
  unfold State.raiseCmd
  rw [State.withAnswer_err]
  split <;> rfl

/-! ### What an observation leaves -/

/-- The procedure of an observation writes at most the draw counter (44_observation.md R215). -/
theorem procOf_observation_ok {i : Instr} {s u : State} {v : Word} (ho : i.isObservation = true)
    (h : procOf i s = .ok (v, u)) : u = { s with draws := u.draws } := by
  have hk := procOf_ok h
  cases i with
  | rdlens idx => subst hk; rfl
  | rdtab tbl part idx => exact hk
  | rdreg reg => subst hk; rfl
  | _ => cases ho

/-- An observation that leaves ERR as it was writes only its answer (44_observation.md R215): it cannot raise a DataError, and
where it would raise a CmdError with ERR = 1 it is ABORTED. -/
theorem exec_observation_eq_withAnswer {i : Instr} {s t : State} (ho : i.isObservation = true)
    (h : exec i s = .next t) (he : t.err = s.err) : t = s.withAnswer t := by
  obtain ⟨hno, -⟩ | ⟨-, ⟨-, v, u, hp, rfl⟩ | ⟨-, c, hp, -⟩ | ⟨c, rfl⟩⟩ := exec_next h
  · rw [ho] at hno; cases hno
  · rw [procOf_observation_ok ho hp]; rfl
  · exact absurd hp (procOf_observation_no_data ho)
  · rw [State.raiseCmd_err] at he
    rw [State.raiseCmd, if_pos he.symm]
    rfl

/-! ### The commands after it -/

/-- The end of a procedure, with the answer of `a` beside what it leaves. -/
def withAnswerOf (a : State) : Except Stop (Word × State) → Except Stop (Word × State)
  | .ok (v, u) => .ok (v, u.withAnswer a)
  | .error e => .error e

theorem readField_withAnswer (n base : Nat) (s a : State) :
    readField n base (s.withAnswer a) = withAnswerOf a (readField n base s) := by
  simp only [readField, State.withAnswer_reader, State.withAnswer_src]
  cases s.reader.readf s.src n base <;> rfl

theorem readbitsProc_withAnswer (n : BitVec 5) (base : BitVec 16) (s a : State) :
    readbitsProc n base (s.withAnswer a) = withAnswerOf a (readbitsProc n base s) := by
  unfold readbitsProc
  split
  · rfl
  · exact readField_withAnswer _ _ s a

theorem buildTableProc_withAnswer (tbl : Tbl) (off num : Nat) (s a : State) :
    buildTableProc tbl off num (s.withAnswer a) = withAnswerOf a (buildTableProc tbl off num s) := by
  simp only [buildTableProc, State.table_withAnswer, State.withAnswer_lens, State.setTable_withAnswer]
  cases (s.table tbl).buildProc s.lens off num <;> rfl

theorem decodeTableProc_withAnswer (tbl : Tbl) (s a : State) :
    decodeTableProc tbl (s.withAnswer a) = withAnswerOf a (decodeTableProc tbl s) := by
  simp only [decodeTableProc, State.table_withAnswer, State.withAnswer_reader, State.withAnswer_src]
  split
  · cases (s.table tbl).decodeProc s.src s.reader <;> rfl
  · rfl

theorem treesProc_withAnswer (s a : State) : treesProc (s.withAnswer a) = withAnswerOf a (treesProc s) := by
  simp only [treesProc, State.withAnswer_reader, State.withAnswer_src, State.withAnswer_lens, State.withAnswer_lt,
    State.withAnswer_dt, State.withAnswer_clt]
  iterate 6
    split
    · rfl
  rfl

/-- The procedure of a command that is no observation neither reads nor writes an earlier answer. -/
theorem procOf_withAnswer {j : Instr} (hj : j.isObservation = false) (s a : State) :
    procOf j (s.withAnswer a) = withAnswerOf a (procOf j s) := by
  cases j with
  | getbit => exact readField_withAnswer 1 0 s a
  | readbits n base => exact readbitsProc_withAnswer n base s a
  | align => rfl
  | build tbl off num => exact buildTableProc_withAnswer tbl off.toNat num.toNat s a
  | decode tbl => exact decodeTableProc_withAnswer tbl s a
  | trees => exact treesProc_withAnswer s a
  | wrlens idx val => rfl
  | _ => cases hj

/-- A command that left `u` leaves `u'` after an observation with the answer of `a`: the same but for RESULT, the response and the
draws, and after a DataError but for the drawn state (44_observation.md R215). -/
def UndisturbedBy (a u u' : State) : Prop :=
  u'.err = u.err ∧ u'.errCause = u.errCause ∧ u'.response.map (·.status) = u.response.map (·.status) ∧
    (u.err = false → u' = { u with draws := a.draws }) ∧
    (u.response.map (·.status) ≠ some .dataError → u' = u.withAnswer u')

theorem ok_undisturbed (a u : State) (v : Word) : UndisturbedBy a (u.ok v) ((u.withAnswer a).ok v) :=
  ⟨rfl, rfl, rfl, fun _ => rfl, fun _ => rfl⟩

theorem abort_undisturbed (a : State) {s : State} (he : s.err = true) :
    UndisturbedBy a s.abort (s.withAnswer a).abort := by
  refine ⟨rfl, rfl, rfl, fun h => ?_, fun _ => rfl⟩
  rw [State.abort_err, he] at h
  cases h

theorem raiseData_undisturbed (a s : State) (c : DataCause) :
    UndisturbedBy a (s.raiseData c) ((s.withAnswer a).raiseData c) :=
  ⟨rfl, rfl, rfl, nofun, fun h => absurd rfl h⟩

theorem raiseCmd_undisturbed (a s : State) (c : CmdCause) :
    UndisturbedBy a (s.raiseCmd c) ((s.withAnswer a).raiseCmd c) := by
  refine ⟨?_, ?_, ?_, fun h => ?_, fun _ => State.raiseCmd_withAnswer s a c⟩
  · rw [State.raiseCmd_err, State.raiseCmd_err]
  · rw [State.raiseCmd_errCause, State.raiseCmd_errCause, State.withAnswer_err, State.withAnswer_errCause]
  · rw [State.raiseCmd_response, State.raiseCmd_response, State.withAnswer_err]
    rfl
  · rw [State.raiseCmd_err] at h
    cases h

/-- The end of a command, on two procedures' ends that differ in the earlier answer alone. -/
theorem finish_undisturbed (a : State) {r : Except Stop (Word × State)} {s u : State} (h : finish r s = .next u) :
    ∃ u', finish (withAnswerOf a r) (s.withAnswer a) = .next u' ∧ UndisturbedBy a u u' := by
  obtain ⟨v, w, rfl, rfl⟩ | ⟨c, rfl, rfl⟩ | ⟨c, rfl, rfl⟩ := finish_next h
  · exact ⟨_, rfl, ok_undisturbed a w v⟩
  · exact ⟨_, rfl, raiseData_undisturbed a s c⟩
  · exact ⟨_, rfl, raiseCmd_undisturbed a s c⟩

/-- A command that is no observation answers as it would without the earlier answer: ABORTED depends on ERR alone, the legality test
on the command alone, and the procedure does not read an answer. -/
theorem exec_undisturbed (a : State) {j : Instr} {s u : State} (hj : j.isObservation = false)
    (h : exec j s = .next u) : ∃ u', exec j (s.withAnswer a) = .next u' ∧ UndisturbedBy a u u' := by
  cases he : s.err with
  | true =>
    have habort : ∀ t : State, t.err = true → exec j t = .next t.abort := fun t ht => by
      rw [exec_eq, if_neg (by simp [hj, ht])]
    rw [habort s he, Host.Outcome.next.injEq] at h
    subst h
    exact ⟨_, habort _ he, abort_undisturbed a he⟩
  | false =>
    rw [exec_eq, if_pos (.inr he)] at h
    rw [exec_eq, if_pos (.inr he)]
    cases hw : j.wellFormed with
    | true =>
      rw [hw, checked_legal] at h
      rw [checked_legal, procOf_withAnswer hj]
      exact finish_undisturbed a h
    | false =>
      rw [hw, checked_illegal, Host.Outcome.next.injEq] at h
      subst h
      exact ⟨_, rfl, raiseCmd_undisturbed a s .illegalCmd⟩

/-- Settles O38: the observation writes only its answer, and the command after it neither reads nor keeps that. -/
theorem observationDisturbsNoCommand : Obligations.ObservationDisturbsNoCommand := by
  unfold Obligations.ObservationDisturbsNoCommand
  intro s t u i j hi hj ht he hu
  have hanswer : t = s.withAnswer t := exec_observation_eq_withAnswer hi ht he
  obtain ⟨u', hu', hundisturbed⟩ := exec_undisturbed t hj hu
  rw [← hanswer] at hu'
  exact ⟨u', hu', hundisturbed⟩

end Sys2Proof.Machine
end

section
/-! PROOF. Errors (60_exceptions.md R232 to R237): what an illegal word does, how a command ends by the value of ERR it found, and what a step with ERR = 1 leaves. -/

namespace Sys2Proof.Machine

/-! ### Raising a CmdError, and illegal words -/

/-- From ERR = 0 a CmdError enters the error (60_exceptions.md R234). -/
theorem State.raiseCmd_of_no_err {s : State} (he : s.err = false) (c : CmdCause) :
    s.raiseCmd c = s.enterError .cmdError c.code := by
  rw [State.raiseCmd, he, if_neg Bool.false_ne_true]

/-- While ERR = 1 a CmdError is not raised, and the answer is ABORTED (60_exceptions.md R237). -/
theorem State.raiseCmd_of_err {s : State} (he : s.err = true) (c : CmdCause) : s.raiseCmd c = s.abort := by
  rw [State.raiseCmd, if_pos he]

/-- The decoder accepts the words of the opcode map alone, so any other word is refused (30_encoding.md R78, R80). -/
theorem runWord_of_not_legal {w : Word} (s : State) (hw : ¬ legalWord w) :
    runWord w s = .next (s.raiseCmd .illegalCmd) := by
  cases hd : decodeWord w with
  | ok i => exact absurd ((decoderAcceptsTheOpcodeMap w).1.mp ⟨i, hd⟩) hw
  | error e => rw [runWord, hd, illegalWord]

/-- A step on an illegal word takes it from the port and raises ILLEGAL_CMD (60_exceptions.md R232). -/
theorem step_of_not_legal {s : State} {w : Word} {rest : List HostMove} (hport : s.port = .command w :: rest)
    (hw : ¬ legalWord w) : step s = .next (State.raiseCmd .illegalCmd { s with port := rest }) := by
  simp only [step, hport, runWord_of_not_legal _ hw]

/-- Settles O6: the decoder refuses the word, and a CmdError from ERR = 0 writes ERR, ERR_CAUSE and the response alone. -/
theorem illegalWordsAreRefused : Obligations.IllegalWordsAreRefused := by
  unfold Obligations.IllegalWordsAreRefused
  intro s w rest hport hw he
  refine ⟨Config.freeResponse s.draws, s.draws + 1, ?_⟩
  rw [step_of_not_legal hport hw, State.raiseCmd_of_no_err (s := { s with port := rest }) he]
  rfl

/-! ### How a command ends, by the value of ERR it found -/

/-- The causes of a DataError are 1 to 4 (60_exceptions.md R230). -/
theorem DataCause.toNat_code_mem (c : DataCause) : c.code.toNat ∈ [1, 2, 3, 4] := by
  cases c <;> decide

/-- The causes of a CmdError are 8 and 9 (60_exceptions.md R230). -/
theorem CmdCause.toNat_code_mem (c : CmdCause) : c.code.toNat ∈ [8, 9] := by
  cases c <;> decide

/-- A command's procedure returns, or it is ABORTED with ERR = 1, or it raises an error from ERR = 0 (60_exceptions.md R235). -/
theorem exec_ends {i : Instr} {s t : State} (h : exec i s = .next t) :
    (i.wellFormed = true ∧ ∃ v u, procOf i s = .ok (v, u) ∧ t = u.ok v) ∨ (s.err = true ∧ t = s.abort) ∨
      (s.err = false ∧ ∃ c : DataCause, t = s.raiseData c) ∨
      (s.err = false ∧ ∃ c : CmdCause, t = s.enterError .cmdError c.code) := by
  obtain ⟨-, he, rfl⟩ | ⟨ho, hok | ⟨-, c, hp, rfl⟩ | ⟨c, rfl⟩⟩ := exec_next h
  · exact .inr (.inl ⟨he, rfl⟩)
  · exact .inl hok
  · exact .inr (.inr (.inl ⟨procOf_data_no_err ho hp, c, rfl⟩))
  · cases he : s.err with
    | true => exact .inr (.inl ⟨rfl, State.raiseCmd_of_err he c⟩)
    | false => exact .inr (.inr (.inr ⟨rfl, c, State.raiseCmd_of_no_err he c⟩))

/-- Settles O41: a DataError has another class of cause and keeps the source and the moves, and a CmdError is the error entry alone. -/
theorem cmdErrorsKeepTheState : Obligations.CmdErrorsKeepTheState := by
  unfold Obligations.CmdErrorsKeepTheState
  intro s t i h hs ht
  refine ⟨fun hcause => ?_, fun _ => exec_keeps_src_port h⟩
  obtain ⟨hw, v, u, hp, rfl⟩ | ⟨he, -⟩ | ⟨-, c, rfl⟩ | ⟨-, c, rfl⟩ := exec_ends h
  · obtain ⟨-, herr, -, -⟩ := procOf_ok_keeps hw hp
    rw [State.ok_err, herr, hs] at ht
    cases ht
  · rw [hs] at he
    cases he
  · rw [State.raiseData_errCause] at hcause
    cases c <;> exact absurd hcause (by decide)
  · rfl

/-! ### What leaves ERR and its cause -/

/-- While ERR = 1 no command writes ERR or ERR_CAUSE (60_exceptions.md R235). -/
theorem exec_keeps_raised {i : Instr} {s t : State} (hs : s.err = true) (h : exec i s = .next t) :
    t.err = true ∧ t.errCause = s.errCause := by
  obtain ⟨hw, v, u, hp, rfl⟩ | ⟨-, rfl⟩ | ⟨he, -⟩ | ⟨he, -⟩ := exec_ends h
  · obtain ⟨-, herr, hcause, -⟩ := procOf_ok_keeps hw hp
    exact ⟨herr.trans hs, hcause⟩
  · exact ⟨hs, rfl⟩
  · simp [hs] at he
  · simp [hs] at he

/-- While ERR = 1 no command word writes ERR or ERR_CAUSE, legal or not. -/
theorem runWord_keeps_raised {w : Word} {s t : State} (hs : s.err = true) (h : runWord w s = .next t) :
    t.err = true ∧ t.errCause = s.errCause := by
  unfold runWord at h
  split at h
  · exact exec_keeps_raised hs h
  · rw [illegalWord, State.raiseCmd_of_err hs, Host.Outcome.next.injEq] at h
    subst h
    exact ⟨hs, rfl⟩

/-- A launch clears ERR (10_state.md R35). -/
theorem launch_clears_err {bytes : List Byte} {s t : State} (h : launch bytes s = .next t) : t.err = false := by
  unfold launch at h
  split at h
  · rw [Host.Outcome.next.injEq] at h
    subst h
    rfl
  · cases h

/-- A step with ERR = 1 keeps ERR and ERR_CAUSE, or it is a reset, which clears ERR: it takes no move, a word, or a reset. -/
theorem step_keeps_raised {s t : State} (hs : s.err = true) (h : step s = .next t) :
    (t.err = true ∧ t.errCause = s.errCause) ∨ ∃ bytes rest, s.port = .reset bytes :: rest ∧ t.err = false := by
  unfold step at h
  split at h
  · rw [Host.Outcome.next.injEq] at h
    subst h
    exact .inl ⟨hs, rfl⟩
  · rename_i w rest _
    exact .inl (runWord_keeps_raised (s := { s with port := rest }) hs h)
  · rename_i bytes rest hport
    exact .inr ⟨bytes, rest, hport, launch_clears_err h⟩

/-- Settles O40: each of the four ends of a command gives its own status, and a step with ERR = 1 is a command or a reset. -/
theorem onlyErrorsAndResetWriteTheCause : Obligations.OnlyErrorsAndResetWriteTheCause := by
  unfold Obligations.OnlyErrorsAndResetWriteTheCause
  refine ⟨fun s t i h => ?_, fun s t h hs => step_keeps_raised hs h⟩
  obtain ⟨hw, v, u, hp, rfl⟩ | ⟨-, rfl⟩ | ⟨he, c, rfl⟩ | ⟨he, c, rfl⟩ := exec_ends h
  · obtain ⟨-, herr, hcause, -⟩ := procOf_ok_keeps hw hp
    exact ⟨_, rfl, fun _ => ⟨herr, hcause⟩, nofun, nofun⟩
  · exact ⟨_, rfl, fun _ => ⟨rfl, rfl⟩, nofun, nofun⟩
  · exact ⟨_, rfl, nofun, fun _ => ⟨he, rfl, c.toNat_code_mem⟩, nofun⟩
  · exact ⟨_, rfl, nofun, nofun, fun _ => ⟨he, rfl, c.toNat_code_mem⟩⟩

/-! ### While ERR = 1 -/

/-- While ERR = 1 a command that is no observation is ABORTED (60_exceptions.md R237). -/
theorem exec_of_err {i : Instr} {s : State} (he : s.err = true) (ho : i.isObservation = false) :
    exec i s = .next s.abort := by
  rw [exec_eq, if_neg (by simp [he, ho])]

/-- An observation's procedure reads ERR only as RDREG ERR (44_observation.md R214): with ERR cleared before it, it ends as without, ERR apart. -/
theorem procOf_observation_clear_err {i : Instr} (ho : i.isObservation = true) (hne : i ≠ .rdreg .err) (s : State) :
    procOf i { s with err := false } =
      (procOf i s).map fun (v, u) => (v, { u with err := false }) := by
  cases i with
  | rdlens idx =>
    simp only [procOf, rdlensProc]
    cases Lens.cell s.lens idx.toNat <;> rfl
  | rdtab tbl part idx =>
    have htable : State.table { s with err := false } tbl = s.table tbl := by cases tbl <;> rfl
    simp only [procOf, rdtabProc, htable]
    split
    · cases part with
      | count => rfl
      | sym => simp only; split <;> rfl
    · rfl
  | rdreg reg =>
    cases reg with
    | err => exact absurd rfl hne
    | _ => rfl
  | _ => cases ho

/-- With ERR = 1 an observation other than RDREG ERR runs as with ERR = 0 if that raises no error, and is ABORTED if it does (60_exceptions.md R237). -/
theorem exec_observation_of_err {i : Instr} {s u : State} (he : s.err = true) (ho : i.isObservation = true)
    (hne : i ≠ .rdreg .err) (h : exec i { s with err := false } = .next u) :
    (u.err = false ∧ exec i s = .next { u with err := true }) ∨ (u.err = true ∧ exec i s = .next s.abort) := by
  rw [exec_eq, if_pos (.inl ho)] at h
  rw [exec_eq, if_pos (.inl ho)]
  cases hw : i.wellFormed with
  | false =>
    rw [hw, checked_illegal, Host.Outcome.next.injEq] at h
    exact .inr ⟨h ▸ State.raiseCmd_err _ _, by rw [checked_illegal, State.raiseCmd_of_err he]⟩
  | true =>
    rw [hw, checked_legal, procOf_observation_clear_err ho hne] at h
    rw [checked_legal]
    match hp : procOf i s with
    | .ok (v, w) =>
      obtain ⟨-, herr, -, -⟩ := procOf_ok_keeps hw hp
      rw [hp] at h
      cases h
      refine .inl ⟨rfl, ?_⟩
      rw [finish_ok, ← he, ← herr]
      rfl
    | .error (.data c) => exact absurd hp (procOf_observation_no_data ho)
    | .error (.cmd c) =>
      rw [hp] at h
      cases h
      exact .inr ⟨State.raiseCmd_err _ _, by rw [finish_cmd, State.raiseCmd_of_err he]⟩
    | .error (.fault f) =>
      rw [hp] at h
      cases h

/-- Settles O39: ABORTED before any other test, a CmdError not raised again, and observations that read ERR only as RDREG ERR. -/
theorem stickyAbort : Obligations.StickyAbort := by
  unfold Obligations.StickyAbort
  refine ⟨fun s i he ho => ⟨_, _, exec_of_err he ho⟩, fun s w rest he hport hw => ?_, fun s u i he ho hne h => ?_,
    fun s he => ?_⟩
  · rw [step_of_not_legal hport hw, State.raiseCmd_of_err (s := { s with port := rest }) he]
    exact ⟨_, _, rfl⟩
  · obtain ⟨hu, hexec⟩ | ⟨hu, hexec⟩ := exec_observation_of_err he ho hne h
    · exact ⟨fun _ => hexec, fun hu' => by simp [hu] at hu'⟩
    · exact ⟨fun hu' => by simp [hu] at hu', fun _ => ⟨_, _, hexec⟩⟩
  · have hreg : s.reg .err = 1 := by rw [State.reg, he]; rfl
    rw [exec_rdreg, hreg]
    rfl

end Sys2Proof.Machine
end

section
/-! PROOF. Steps at the edge of the host's port: no move to take, and a reset on a source that SRC_LEN cannot hold (92_eei_decisions.md D23; assumptions 9 and 15). -/

namespace Sys2Proof.Machine

/-- Settles O9: on an empty port the step takes its first branch, which is the state itself. -/
theorem stepWaitsForTheHost : Obligations.StepWaitsForTheHost := by
  unfold Obligations.StepWaitsForTheHost
  intro s hport
  rw [step, hport]

/-- A step on a reset move takes it from the port and launches its source. -/
theorem step_of_reset {s : State} {bytes : List Byte} {rest : List HostMove} (hport : s.port = .reset bytes :: rest) :
    step s = launch bytes { s with port := rest } := by
  rw [step, hport]

/-- A launch refuses a source whose length does not fit in SRC_LEN. -/
theorem launch_of_too_long {bytes : List Byte} (hlen : 2 ^ 32 ≤ bytes.length) (s : State) :
    launch bytes s = .refused .sourceTooLong := by
  rw [launch, if_neg (Nat.not_lt.mpr hlen)]

/-- Settles O11: the reset launches its source, and the launch refuses it. -/
theorem longSourcesAreRefused : Obligations.LongSourcesAreRefused := by
  unfold Obligations.LongSourcesAreRefused
  intro s bytes rest hport hlen
  rw [step_of_reset hport, launch_of_too_long hlen]

end Sys2Proof.Machine
end
